-- ==== Sys2Proof/Word.lean ====
section
/-! DEFINITION. The byte, the only word of LS-8 CORE (R5, R7, R31): registers, memory cells, operand bytes, the program
counter and printed values are all unsigned and 8 bits wide. -/

namespace Sys2Proof

/-- A value of the core: 8 bits, unsigned (R5 `XLEN`, `CELL`, `ALEN`, `PCLEN`; R7). -/
abbrev Byte := BitVec 8

/-- The spec's `u8(v)`: the value in 0 to 255 congruent to `v` modulo 256 (R7). -/
def u8 (v : Nat) : Byte := BitVec.ofNat 8 v

end Sys2Proof
end

