-- ==== Sys2Proof/Config.lean ====
section
/-! DEFINITION. What is fixed for one LS-8 CORE (R5): the constants of the parameter table, and the type of its one
parameter, `OpcodeMap`. The default value of that parameter is in Sys2Proof/Decode.lean. There is no free value: the
spec leaves no behaviour as "any value" (93_implementation_defined.md, end of part 1). -/

namespace Sys2Proof

/-- `MEMSIZE` (R5, R29): 256 cells, addresses 0 to 255. -/
def Config.memSize : Nat := 256

/-- `SP_RESET` (R5, R27). -/
def Config.spReset : Byte := 0xF4#8

/-- `PC_RESET`, the reset vector (R5, R108). -/
def Config.pcReset : Byte := 0x00#8

/-- `OpcodeMap` (R5, R41, 92_eei_decisions.md D5): the opcode byte of each of the fourteen instructions (R1), in the
order of spec/opcode_table.json. The model's decoder, encoder and step take it as an argument. -/
structure OpcodeMap where
  hlt : Byte
  ldi : Byte
  prn : Byte
  add : Byte
  mul : Byte
  push : Byte
  pop : Byte
  call : Byte
  ret : Byte
  jmp : Byte
  cmp : Byte
  jeq : Byte
  jne : Byte
  st : Byte
  deriving DecidableEq, Repr

end Sys2Proof
end

