-- ==== Sys2Proof/Syntax.lean ====
section
/-! DEFINITION. The fourteen instructions of LS-8 CORE (R1), one constructor per row of spec/opcode_table.json. A
register operand is the whole operand byte (R47): the byte 9 in a register operand is still that instruction, and
running it is the fault REG_INDEX_RANGE (R60, 30_encoding.md's note on opcode_table.json), so it has a term here. -/

namespace Sys2Proof

/-- An instruction with its operand bytes A and B (R9): `rA` and `rB` are register operand bytes, `imm` the literal
byte of LOAD-IMMEDIATE. Operand bytes that a format does not declare are no part of the instruction (R49). -/
inductive Instr where
  /-- HALT, format F0 (R69). -/
  | hlt
  /-- LOAD-IMMEDIATE, format F2RI (R73). -/
  | ldi (rA imm : Byte)
  /-- PRINT-REGISTER, format F1R (R70). -/
  | prn (rA : Byte)
  /-- ADD, format F2RR (R77). -/
  | add (rA rB : Byte)
  /-- MULTIPLY, format F2RR (R78). -/
  | mul (rA rB : Byte)
  /-- PUSH, format F1R (R82). -/
  | push (rA : Byte)
  /-- POP, format F1R (R83). -/
  | pop (rA : Byte)
  /-- CALL, format F1R (R86). -/
  | call (rA : Byte)
  /-- RETURN, format F0 (R87). -/
  | ret
  /-- JUMP, format F1R (R88). -/
  | jmp (rA : Byte)
  /-- COMPARE, format F2RR (R79). -/
  | cmp (rA rB : Byte)
  /-- JUMP-IF-EQUAL, format F1R (R90). -/
  | jeq (rA : Byte)
  /-- JUMP-IF-NOT-EQUAL, format F1R (R91). -/
  | jne (rA : Byte)
  /-- STORE, format F2RR (R75). -/
  | st (rA rB : Byte)
  deriving DecidableEq, Repr

end Sys2Proof
end

