-- ==== Sys2Proof/WellFormed.lean ====
section
/-! DEFINITION. Which instructions are well-formed: those whose declared register operands each name a register (R47).
An ill-formed one is still decoded and run; running it is the fault REG_INDEX_RANGE (R60, R96). -/

namespace Sys2Proof

/-- The register operand bytes an instruction declares, A before B: the table of R60. -/
def Instr.regOperands : Instr → List Byte
  | .hlt => []
  | .ldi a _ => [a]
  | .prn a => [a]
  | .add a b => [a, b]
  | .mul a b => [a, b]
  | .push a => [a]
  | .pop a => [a]
  | .call a => [a]
  | .ret => []
  | .jmp a => [a]
  | .cmp a b => [a, b]
  | .jeq a => [a]
  | .jne a => [a]
  | .st a b => [a, b]

/-- Every declared register operand is 0 to 7 (R47, R60). -/
def Instr.wellFormed (i : Instr) : Bool :=
  i.regOperands.all fun p => decide (p.toNat ≤ 7)

end Sys2Proof
end

