-- ==== Sys2Proof/Decode.lean ====
section
/-! DEFINITION. The decoder and the encoder, both over an arbitrary `OpcodeMap`, and both at the default map of R41.
The decoder is total on three bytes, the opcode and the two operand bytes that every cycle fetches (R58), selects by the
whole opcode byte alone (R44), and rejects by name. -/

namespace Sys2Proof

/-- The default `OpcodeMap`: the table of R41. UNVERIFIED: the spec marks these bytes as general knowledge, checked only
against the source's operand counts (D5, K1; notes/assumptions/1.md). -/
def defaultOpcodeMap : OpcodeMap where
  hlt := 0x01#8
  ldi := 0x82#8
  prn := 0x47#8
  add := 0xA0#8
  mul := 0xA2#8
  push := 0x45#8
  pop := 0x46#8
  call := 0x50#8
  ret := 0x11#8
  jmp := 0x54#8
  cmp := 0xA7#8
  jeq := 0x55#8
  jne := 0x56#8
  st := 0x84#8

/-- Bits [7:6] of an opcode byte, the operand count `n` (R43, R57). -/
def countField (op : Byte) : BitVec 2 := op.extractLsb' 6 2

/-- The operand count of an instruction's format (R46, the "operand count" column of R41). -/
def Instr.operandCount : Instr → Nat
  | .hlt => 0
  | .ldi _ _ => 2
  | .prn _ => 1
  | .add _ _ => 2
  | .mul _ _ => 2
  | .push _ => 1
  | .pop _ => 1
  | .call _ => 1
  | .ret => 0
  | .jmp _ => 1
  | .cmp _ _ => 2
  | .jeq _ => 1
  | .jne _ => 1
  | .st _ _ => 2

/-- The opcode byte of an instruction under a map (R41). -/
def Instr.opcode (m : OpcodeMap) : Instr → Byte
  | .hlt => m.hlt
  | .ldi _ _ => m.ldi
  | .prn _ => m.prn
  | .add _ _ => m.add
  | .mul _ _ => m.mul
  | .push _ => m.push
  | .pop _ => m.pop
  | .call _ => m.call
  | .ret => m.ret
  | .jmp _ => m.jmp
  | .cmp _ _ => m.cmp
  | .jeq _ => m.jeq
  | .jne _ => m.jne
  | .st _ _ => m.st

/-- The fourteen opcode bytes of a map, in the order of the opcode table. -/
def OpcodeMap.bytes (m : OpcodeMap) : List Byte :=
  [m.hlt, m.ldi, m.prn, m.add, m.mul, m.push, m.pop, m.call, m.ret, m.jmp, m.cmp, m.jeq, m.jne, m.st]

/-- The operand counts of the fourteen instructions, in the same order (R41, the last paragraph). -/
def opcodeCounts : List Nat :=
  [0, 2, 1, 2, 2, 1, 1, 1, 0, 1, 2, 1, 1, 2]

/-- A map this hardware can have: one handler per byte value (R44), and bits [7:6] of each byte are its instruction's
operand count (R43, D5). DEDUCED: notes/assumptions/2.md. -/
abbrev OpcodeMap.wellFormed (m : OpcodeMap) : Prop :=
  m.bytes.Pairwise (fun x y => x ≠ y) ∧ m.bytes.map (fun op => (countField op).toNat) = opcodeCounts

/-- Why three bytes are no instruction. -/
inductive DecodeError where
  /-- The opcode byte is not in the map (R42, R59). -/
  | invalidOpcode (op : Byte)
  deriving DecidableEq, Repr

/-- The opcode table (R41) with the operand bytes filled in: each row is an opcode byte and the instruction it selects,
with the operand bytes its format declares (R46). -/
def OpcodeMap.rows (m : OpcodeMap) (a b : Byte) : List (Byte × Instr) :=
  [(m.hlt, .hlt),
   (m.ldi, .ldi a b),
   (m.prn, .prn a),
   (m.add, .add a b),
   (m.mul, .mul a b),
   (m.push, .push a),
   (m.pop, .pop a),
   (m.call, .call a),
   (m.ret, .ret),
   (m.jmp, .jmp a),
   (m.cmp, .cmp a b),
   (m.jeq, .jeq a),
   (m.jne, .jne a),
   (m.st, .st a b)]

/-- The decoder (R44, R59): the instruction of the opcode byte `op` with the operand bytes `a` and `b` that its format
declares; operand bytes it does not declare are ignored (R49). -/
def decodeWith (m : OpcodeMap) (op a b : Byte) : Except DecodeError Instr :=
  match (m.rows a b).find? (fun row => row.1 == op) with
  | some row => .ok row.2
  | none => .error (.invalidOpcode op)

/-- The decoder at the default map. -/
def decode (op a b : Byte) : Except DecodeError Instr := decodeWith defaultOpcodeMap op a b

/-- The operand bytes that stand after the opcode byte, A then B (R45, R46). -/
def Instr.operandBytes : Instr → List Byte
  | .hlt => []
  | .ldi a b => [a, b]
  | .prn a => [a]
  | .add a b => [a, b]
  | .mul a b => [a, b]
  | .push a => [a]
  | .pop a => [a]
  | .call a => [a]
  | .ret => []
  | .jmp a => [a]
  | .cmp a b => [a, b]
  | .jeq a => [a]
  | .jne a => [a]
  | .st a b => [a, b]

/-- The encoder: an instruction's bytes in address order (R45, R46). -/
def encodeWith (m : OpcodeMap) (i : Instr) : List Byte := i.opcode m :: i.operandBytes

/-- The encoder at the default map. -/
def encode (i : Instr) : List Byte := encodeWith defaultOpcodeMap i

/-- Byte `j` (0 is the byte at `pc`) of an instruction given as one number of `nbits` bits in the numbering of
spec/opcode_table.json: its bytes joined in address order with the byte at `pc` most significant (30_encoding.md, "How
to read opcode_table.json"; notes/assumptions/3.md). Bytes past the number are 0. -/
def tableByte (nbits w j : Nat) : Byte :=
  if j < (nbits + 7) / 8 then u8 (w >>> (8 * ((nbits + 7) / 8 - 1 - j))) else 0#8

/-- The instruction the decoder reads from a number of the opcode table's numbering. -/
def decodeTableWord (nbits w : Nat) : Option Instr :=
  match decode (tableByte nbits w 0) (tableByte nbits w 1) (tableByte nbits w 2) with
  | .ok i => some i
  | .error _ => none

end Sys2Proof
end

