-- ==== Sys2Proof/Machine/State.lean ====
section
/-! DEFINITION. The machine's state (10_state.md, 20_memory.md) as plain data, its reset value (R27, R107), and the
reasons the model itself could stop (none: every fault of this hardware is a state, R97). -/

namespace Sys2Proof.Machine

/-- The names of the eight registers (R10, R11). -/
inductive Reg where
  | r0 | r1 | r2 | r3 | r4 | r5 | r6 | r7
  deriving DecidableEq, Repr

/-- The register file: eight 8-bit registers, none of them hardwired, banked or protected (R10, R11, R12). R6 is SP. -/
structure Regs where
  r0 : Byte
  r1 : Byte
  r2 : Byte
  r3 : Byte
  r4 : Byte
  r5 : Byte
  r6 : Byte
  r7 : Byte
  deriving DecidableEq, Repr

/-- The flag state FL (R17): `none` is the start-up state NONE, held from reset until the first COMPARE (C1). -/
inductive Flag where
  | none | less | greater | equal
  deriving DecidableEq, Repr

/-- The fault causes (R94). -/
inductive Cause where
  /-- Decode of a byte that is not in the opcode map (R95). -/
  | invalidOpcode
  /-- An ALU request other than ADD, MULTIPLY, COMPARE; no instruction makes one (R80, R98). -/
  | unsupportedAluOp
  /-- A declared register operand byte of 8 or more (R96). -/
  | regIndexRange
  deriving DecidableEq, Repr

/-- The fault record's triple `(cause, fault_pc, fault_op)` (R21). -/
structure FaultRecord where
  cause : Cause
  pc : Byte
  op : Byte
  deriving DecidableEq, Repr

/-- The bytes latched at the start of a cycle: the opcode and the operand bytes A and B (R25, R56, R58). The operand
count `n` is `Latch.n`, read off the opcode byte (R57). -/
structure Latch where
  op : Byte
  a : Byte
  b : Byte
  deriving DecidableEq, Repr

/-- The 256 cells of memory (R29), as the list of those that do not hold 0; see `Memory.wf`. -/
abbrev Memory := List Host.Cell

/-- What a cell that is not listed holds: 0, the reset contents (R27, R37). -/
def Memory.unlisted : Byte := 0#8

/-- The canonical form, a DESIGN CHOICE (notes/assumptions/12.md): addresses strictly rising, all of them below 256 (R29),
and no cell listed that holds what an unlisted one reads as. -/
abbrev Memory.wf (m : Memory) : Prop :=
  m.Pairwise (fun c d => c.1 < d.1) ∧ ∀ c ∈ m, c.1 < Config.memSize ∧ c.2 ≠ Memory.unlisted

/-- All the state of the core (R26: there is no other). -/
structure State where
  /-- The register file (R10). -/
  regs : Regs
  /-- The program counter (R14). -/
  pc : Byte
  /-- The flag state FL (R17). -/
  fl : Flag
  /-- The running flag (R20). -/
  running : Bool
  /-- The fault record; `none` is the spec's own "none" (R21). -/
  fault : Option FaultRecord
  /-- The values PRINT-REGISTER has emitted, oldest first (R23). -/
  out : List Byte
  /-- Memory (R29). -/
  mem : Memory
  /-- What is held only within a cycle (R25); `none` between steps and after reset: no cycle is in progress (R27). -/
  cycle : Option Latch
  deriving DecidableEq, Repr

/-- The stops of a step with a fault of the model. There is none: an exceptional condition of this hardware is a fault
RECORD in a next state (R97), every address exists (R32), and the step is total (R65). So no step answers
`Host.Outcome.fault`. -/
inductive Fault where
  deriving DecidableEq, Repr

/-- The stops of a step for want of a meaning. -/
inductive Refusal where
  /-- Raised by an arm of `exec` whose instruction has no meaning yet; safe. No arm raises it: all fourteen instructions
  have their meaning. -/
  | notModelled (mnemonic : String)
  deriving DecidableEq, Repr

/-- The state after reset (R27, R107): every value is the spec's. -/
def State.reset : State where
  regs :=
    { r0 := 0#8, r1 := 0#8, r2 := 0#8, r3 := 0#8, r4 := 0#8, r5 := 0#8, r6 := Config.spReset, r7 := 0#8 }
  pc := Config.pcReset
  fl := .none
  running := true
  fault := none
  out := []
  mem := []
  cycle := none

end Sys2Proof.Machine
end

