-- ==== Sys2Proof/Machine/Ops.lean ====
section
/-! DEFINITION. The named operations over registers, memory, the program counter, the output stream and the stack, the
start and end of a cycle, and fault entry: the pseudocode primitives of R8, each in one place. -/

namespace Sys2Proof.Machine

/-- The outcome of a step or of an instruction. -/
abbrev Result := Host.Outcome State Fault Refusal

/-! ## Registers (R8, R10) -/

def Regs.get (g : Regs) : Reg → Byte
  | .r0 => g.r0
  | .r1 => g.r1
  | .r2 => g.r2
  | .r3 => g.r3
  | .r4 => g.r4
  | .r5 => g.r5
  | .r6 => g.r6
  | .r7 => g.r7

def Regs.set (g : Regs) (r : Reg) (v : Byte) : Regs :=
  match r with
  | .r0 => { g with r0 := v }
  | .r1 => { g with r1 := v }
  | .r2 => { g with r2 := v }
  | .r3 => { g with r3 := v }
  | .r4 => { g with r4 := v }
  | .r5 => { g with r5 := v }
  | .r6 => { g with r6 := v }
  | .r7 => { g with r7 := v }

/-- The register that has the alias SP: register 6 (R11, C8). -/
def Reg.sp : Reg := .r6

/-- `x[r]` (R8). -/
def State.reg (s : State) (r : Reg) : Byte := s.regs.get r

/-- `x[r] <- v` (R8). -/
def State.setReg (s : State) (r : Reg) (v : Byte) : State := { s with regs := s.regs.set r v }

/-- `SP`, another name for register 6 (R8, R11). -/
def State.sp (s : State) : Byte := s.reg Reg.sp

/-! ## Memory (R8, R28 to R37) -/

/-- The cell at address `a`: the listed byte, or what an unlisted cell holds (R37). -/
def Memory.read (m : Memory) (a : Nat) : Byte :=
  match m with
  | [] => Memory.unlisted
  | (k, v) :: rest => if k = a then v else Memory.read rest a

/-- Take the cell at `a` off the list. -/
def Memory.erase (m : Memory) (a : Nat) : Memory := m.filter fun c => c.1 ≠ a

/-- List the byte `v` at `a`, in front of the first higher address. -/
def Memory.insert (m : Memory) (a : Nat) (v : Byte) : Memory :=
  match m with
  | [] => [(a, v)]
  | (k, w) :: rest => if a < k then (a, v) :: (k, w) :: rest else (k, w) :: Memory.insert rest a v

/-- Set the cell at `a` to `v`, keeping the canonical form (R34: a write changes only its one cell). -/
def Memory.write (m : Memory) (a : Nat) (v : Byte) : Memory :=
  if v = Memory.unlisted then m.erase a else (m.erase a).insert a v

/-- Place bytes at consecutive addresses from `a` upward (R109). -/
def Memory.place (m : Memory) (a : Nat) (image : List Byte) : Memory :=
  match image with
  | [] => m
  | v :: rest => Memory.place (m.write a v) (a + 1) rest

/-- `MemRead(addr, 1)` (R8): addresses are bytes, so the reduction modulo 256 (R33) is in the address itself. -/
def State.memRead (s : State) (addr : Byte) : Byte := s.mem.read addr.toNat

/-- `MemWrite(addr, 1, v)` (R8). -/
def State.memWrite (s : State) (addr v : Byte) : State := { s with mem := s.mem.write addr.toNat v }

/-! ## The stack (R81) -/

/-- `SP <- u8(SP - 1)`, wrapping from 0 to 255 (R33). -/
def State.decSp (s : State) : State := s.setReg Reg.sp (s.sp - 1#8)

/-- `SP <- u8(SP + 1)`, wrapping from 255 to 0 (R33). -/
def State.incSp (s : State) : State := s.setReg Reg.sp (s.sp + 1#8)

/-- A push of the value that `v` gives in the state after the decrement: first SP is decremented, then the byte is
written at the new SP (R81, R82, R86; D6). -/
def State.pushByte (s : State) (v : State → Byte) : State :=
  s.decSp.memWrite s.decSp.sp (v s.decSp)

/-! ## Output and status -/

/-- `Emit(v)` (R8, R23). -/
def State.emit (s : State) (v : Byte) : State := { s with out := s.out ++ [v] }

/-- `FL <- f` (R79). -/
def State.setFl (s : State) (f : Flag) : State := { s with fl := f }

/-- `running <- false` (R69). -/
def State.halt (s : State) : State := { s with running := false }

/-! ## The cycle (R25, R56 to R58) -/

/-- The operand count `n` of the latched opcode byte (R25, R57). -/
def Latch.n (l : Latch) : BitVec 2 := countField l.op

/-- The fetch: the opcode at `pc` and, for every opcode, the bytes at `pc + 1` and `pc + 2` (R56, R58), the addresses
modulo 256 (R33). -/
def State.fetch (s : State) : Latch where
  op := s.memRead s.pc
  a := s.memRead (s.pc + 1#8)
  b := s.memRead (s.pc + 2#8)

/-- The start of a cycle: the fetched bytes are latched (R25). -/
def State.beginCycle (s : State) : State := { s with cycle := some s.fetch }

/-- The end of a cycle: the latch is discarded (R25). -/
def State.endCycle (s : State) : State := { s with cycle := none }

/-- The opcode byte of the instruction at `pc`: the latched one while a cycle is in progress (R25). With no cycle in
progress (a meaning applied outside a step) it is the byte at `pc`. DESIGN CHOICE: notes/assumptions/5.md. -/
def State.currentOp (s : State) : Byte :=
  match s.cycle with
  | some l => l.op
  | none => s.memRead s.pc

/-- The PC update (R62): the target a handler returned (0 is a target like any other, R67), or else
`u8(pc + 1 + n)`, where `n` is the operand count of the instruction. -/
def State.updatePc (s : State) (n : Nat) (ret : Option Byte) : State :=
  { s with pc := match ret with
                 | some t => t
                 | none => u8 (s.pc.toNat + 1 + n) }

/-- The end of an instruction whose handler ran: PC update (R62), and the step has its next state. -/
def complete (n : Nat) (ret : Option Byte) (s : State) : Result := .next (s.updatePc n ret)

/-! ## Faults (R94, R97) -/

/-- The cause codes (R94). -/
def Cause.code : Cause → Nat
  | .invalidOpcode => 1
  | .unsupportedAluOp => 2
  | .regIndexRange => 3

/-- Fault entry (R97): `fault <- (c, pc, op)`, `running <- false`, nothing else. There is no return from a fault
(R100). -/
def State.raiseFault (s : State) (c : Cause) : State :=
  { s with fault := some { cause := c, pc := s.pc, op := s.currentOp }, running := false }

end Sys2Proof.Machine
end

