-- ==== Sys2Proof/Machine/Operands.lean ====
section
/-! DEFINITION. The operand forms: a register operand byte (R47) and the register operand check that comes before a
handler (R60). The literal operand of LOAD-IMMEDIATE is the byte itself (R48) and needs no operation. -/

namespace Sys2Proof.Machine

/-- The register a register operand byte names: the whole byte is the index, and 8 to 255 name none (R47). -/
def Reg.ofByte (b : Byte) : Option Reg :=
  match b.toNat with
  | 0 => some .r0
  | 1 => some .r1
  | 2 => some .r2
  | 3 => some .r3
  | 4 => some .r4
  | 5 => some .r5
  | 6 => some .r6
  | 7 => some .r7
  | _ => none

/-- The operand byte that names a register: its index (R10, R47). -/
def Reg.index : Reg → Byte
  | .r0 => 0#8
  | .r1 => 1#8
  | .r2 => 2#8
  | .r3 => 3#8
  | .r4 => 4#8
  | .r5 => 5#8
  | .r6 => 6#8
  | .r7 => 7#8

/-- The check of one register operand (R60): the handler runs with the register the byte names, or the fault
REG_INDEX_RANGE is raised before it has any effect (R63, R96). -/
def withReg (p : Byte) (s : State) (handler : Reg → Result) : Result :=
  match Reg.ofByte p with
  | some r => handler r
  | none => .next (s.raiseFault .regIndexRange)

/-- The check of two register operands, A then B (R60, R99). -/
def withRegs (pA pB : Byte) (s : State) (handler : Reg → Reg → Result) : Result :=
  withReg pA s fun rA => withReg pB s fun rB => handler rA rB

end Sys2Proof.Machine
end

