-- ==== Sys2Proof/Machine/Flags.lean ====
section
/-! DEFINITION. The 8-bit ALU (R76) and the flag state: what ADD, MULTIPLY and COMPARE compute, the ALU's operation
input with its unsupported tags (R80, R98), the conditions the conditional jumps read (R89), and FL as bits (R19). -/

namespace Sys2Proof.Machine

/-- ADD's value: the exact sum modulo 256, the carry discarded (R76, D1). -/
def aluAdd (x y : Byte) : Byte := u8 (x.toNat + y.toNat)

/-- MULTIPLY's value: the low 8 bits of the exact product (R76, D1). -/
def aluMul (x y : Byte) : Byte := u8 (x.toNat * y.toNat)

/-- COMPARE's flag: the unsigned order of the two values (R76, R79). -/
def aluCompare (x y : Byte) : Flag :=
  if x.toNat < y.toNat then .less else if y.toNat < x.toNat then .greater else .equal

/-- The ALU's operation input: the three operations (R76), and any other operation tag (R80). How another tag is written
is a DESIGN CHOICE (notes/assumptions/6.md): no instruction supplies one. -/
inductive AluOp where
  | add
  | multiply
  | compare
  | other (tag : Nat)
  deriving DecidableEq, Repr

/-- What an ALU operation leaves: a value for the register named by A, or a flag state. -/
inductive AluResult where
  | value (v : Byte)
  | flag (f : Flag)
  deriving DecidableEq, Repr

/-- The ALU: `none` for an operation it does not have (R80). -/
def alu (op : AluOp) (x y : Byte) : Option AluResult :=
  match op with
  | .add => some (.value (aluAdd x y))
  | .multiply => some (.value (aluMul x y))
  | .compare => some (.flag (aluCompare x y))
  | .other _ => none

/-- The condition of JUMP-IF-EQUAL: FL = EQUAL. JUMP-IF-NOT-EQUAL has its opposite: LESS, GREATER or NONE (R89). -/
def Flag.isEqual : Flag → Bool
  | .equal => true
  | .less => false
  | .greater => false
  | .none => false

/-- FL as the 3-bit field `00000LGE` (R19, D8); no instruction can observe it (R18). -/
def Flag.bits : Flag → BitVec 3
  | .none => 0#3
  | .equal => 1#3
  | .greater => 2#3
  | .less => 4#3

end Sys2Proof.Machine
end

