-- ==== Sys2Proof/Machine/Alu.lean ====
section
/-! DEFINITION. The ALU instructions, 43_alu.md: ADD, MULTIPLY and COMPARE over one shared operation with the ALU's
operation input. -/

namespace Sys2Proof.Machine

/-- What an instruction does with the ALU's answer: a value goes to the register named by A, a flag state to FL, and no
answer is the fault UNSUPPORTED_ALU_OP, before any state changes (R76, R80, R98). -/
def finishAlu (rA : Reg) (answer : Option AluResult) (s : State) : Result :=
  match answer with
  | some (.value v) => complete 2 none (s.setReg rA v)
  | some (.flag f) => complete 2 none (s.setFl f)
  | none => .next (s.raiseFault .unsupportedAluOp)

/-- An ALU request by an instruction with register operands A and B: the register check (R60), then the operation; so
UNSUPPORTED_ALU_OP comes after REG_INDEX_RANGE (R99). -/
def execAluOp (op : AluOp) (a b : Byte) (s : State) : Result :=
  withRegs a b s fun rA rB => finishAlu rA (alu op (s.reg rA) (s.reg rB)) s

/-- ADD (R77): `x[A] <- u8(x[A] + x[B])`. -/
def execAdd (a b : Byte) (s : State) : Result := execAluOp .add a b s

/-- MULTIPLY (R78): `x[A] <- u8(x[A] * x[B])`. -/
def execMul (a b : Byte) (s : State) : Result := execAluOp .multiply a b s

/-- COMPARE (R79): FL from the unsigned order of `x[A]` and `x[B]`. -/
def execCmp (a b : Byte) (s : State) : Result := execAluOp .compare a b s

end Sys2Proof.Machine
end

