-- ==== Sys2Proof/Machine/ControlFlow.lean ====
section
/-! DEFINITION. The control-flow instructions, 45_control_flow.md: CALL, RETURN, JUMP, JUMP-IF-EQUAL and
JUMP-IF-NOT-EQUAL. Every target is an absolute byte address (R84). -/

namespace Sys2Proof.Machine

/-- CALL (R86): pushes `u8(pc + 2)`, then jumps to `x[A]`, read after the decrement (CALL R6 jumps to the decremented
SP, D6). -/
def execCall (a : Byte) (s : State) : Result :=
  withReg a s fun rA => complete 1 (some (s.decSp.reg rA)) (s.pushByte fun t => u8 (t.pc.toNat + 2))

/-- RETURN (R87): pops the target. -/
def execRet (s : State) : Result := complete 0 (some (s.memRead s.sp)) s.incSp

/-- JUMP (R88). -/
def execJmp (a : Byte) (s : State) : Result :=
  withReg a s fun rA => complete 1 (some (s.reg rA)) s

/-- JUMP-IF-EQUAL (R90): taken when FL = EQUAL; the register is checked whether or not it is taken (R47). -/
def execJeq (a : Byte) (s : State) : Result :=
  withReg a s fun rA => complete 1 (if s.fl.isEqual then some (s.reg rA) else none) s

/-- JUMP-IF-NOT-EQUAL (R91): taken when FL is LESS, GREATER or NONE. -/
def execJne (a : Byte) (s : State) : Result :=
  withReg a s fun rA => complete 1 (if s.fl.isEqual then none else some (s.reg rA)) s

end Sys2Proof.Machine
end

