-- ==== Sys2Proof/Machine/LoadStore.lean ====
section
/-! DEFINITION. The load-immediate and store instructions, 42_load_store.md: LOAD-IMMEDIATE and STORE. -/

namespace Sys2Proof.Machine

/-- LOAD-IMMEDIATE (R73): `x[A] <- B`; the literal B is never checked (R48, R60). -/
def execLdi (a imm : Byte) (s : State) : Result :=
  withReg a s fun rA => complete 2 none (s.setReg rA imm)

/-- STORE (R75): `MemWrite(x[A], 1, x[B])`. -/
def execSt (a b : Byte) (s : State) : Result :=
  withRegs a b s fun rA rB => complete 2 none (s.memWrite (s.reg rA) (s.reg rB))

end Sys2Proof.Machine
end

