-- ==== Sys2Proof/Machine/Stack.lean ====
section
/-! DEFINITION. The stack instructions, 44_stack.md: PUSH and POP. -/

namespace Sys2Proof.Machine

/-- PUSH (R82): `x[A]` is read after the decrement, so PUSH R6 pushes the decremented SP (D6). -/
def execPush (a : Byte) (s : State) : Result :=
  withReg a s fun rA => complete 1 none (s.pushByte fun t => t.reg rA)

/-- POP (R83): SP is read after the load, so POP R6 leaves the loaded value plus 1 (D6). -/
def execPop (a : Byte) (s : State) : Result :=
  withReg a s fun rA => complete 1 none (s.setReg rA (s.memRead s.sp)).incSp

end Sys2Proof.Machine
end

