-- ==== Sys2Proof/Machine/SystemIo.lean ====
section
/-! DEFINITION. The system and output instructions, 41_system_io.md: HALT and PRINT-REGISTER. -/

namespace Sys2Proof.Machine

/-- HALT (R69): `running <- false`; returns nothing, so `pc` still advances by 1 (R66). -/
def execHlt (s : State) : Result := complete 0 none s.halt

/-- PRINT-REGISTER (R70): emits the register's 8-bit value. -/
def execPrn (a : Byte) (s : State) : Result :=
  withReg a s fun rA => complete 1 none (s.emit (s.reg rA))

end Sys2Proof.Machine
end

