-- ==== Sys2Proof/Machine/Dispatch.lean ====
section
/-! DEFINITION. The dispatch (R61): one arm per instruction, each one call of its meaning. -/

namespace Sys2Proof.Machine

/-- The register operand check, the handler and the PC update of one decoded instruction (R60 to R62). -/
def exec (i : Instr) (s : State) : Host.Outcome State Fault Refusal :=
  match i with
  | .hlt => Sys2Proof.Machine.execHlt s
  | .ldi rA imm => Sys2Proof.Machine.execLdi rA imm s
  | .prn rA => Sys2Proof.Machine.execPrn rA s
  | .add rA rB => Sys2Proof.Machine.execAdd rA rB s
  | .mul rA rB => Sys2Proof.Machine.execMul rA rB s
  | .push rA => Sys2Proof.Machine.execPush rA s
  | .pop rA => Sys2Proof.Machine.execPop rA s
  | .call rA => Sys2Proof.Machine.execCall rA s
  | .ret => Sys2Proof.Machine.execRet s
  | .jmp rA => Sys2Proof.Machine.execJmp rA s
  | .cmp rA rB => Sys2Proof.Machine.execCmp rA rB s
  | .jeq rA => Sys2Proof.Machine.execJeq rA s
  | .jne rA => Sys2Proof.Machine.execJne rA s
  | .st rA rB => Sys2Proof.Machine.execSt rA rB s

end Sys2Proof.Machine
end

