-- ==== Sys2Proof/Machine/Cycle.lean ====
section
/-! DEFINITION. One fetch-decode-execute cycle (R64) under any `OpcodeMap`, and the placing of instruction bytes at the
program counter. -/

namespace Sys2Proof.Machine

/-- Discard the latch of a cycle that ended in a next state (R25). -/
def endResult : Result → Result
  | .next t => .next t.endCycle
  | .fault r => .fault r
  | .refused r => .refused r

/-- The cycle of a running core (R64): fetch, decode, and either the fault INVALID_OPCODE (R59, R95) or the instruction.
The handler runs with the bytes latched before it (R113). -/
def runCycle (m : OpcodeMap) (s : State) : Result :=
  match decodeWith m s.fetch.op s.fetch.a s.fetch.b with
  | .error _ => endResult (.next (s.beginCycle.raiseFault .invalidOpcode))
  | .ok i => endResult (exec i s.beginCycle)

/-- One step (R54): a cycle while `running` is true; a core that has stopped takes no step and holds its state (R106). -/
def stepWith (m : OpcodeMap) (s : State) : Result :=
  if s.running then runCycle m s else .next s

/-- The state with three bytes at `pc`, `pc + 1` and `pc + 2` (modulo 256) and the core running without a fault, so that
its next step fetches them (notes/assumptions/8.md). -/
def State.placeAtPc (s : State) (op a b : Byte) : State :=
  let t := ((s.memWrite s.pc op).memWrite (s.pc + 1#8) a).memWrite (s.pc + 2#8) b
  { t with running := true, fault := none }

end Sys2Proof.Machine
end

