-- ==== Sys2Proof/Machine/Step.lean ====
section
/-! DEFINITION. The step of the machine with the default opcode map (R41, R64), and the state in which it runs a given
instruction next. -/

namespace Sys2Proof.Machine

/-- One step of the core (R54, R64) with the default `OpcodeMap`. -/
def step (s : State) : Host.Outcome State Fault Refusal := stepWith defaultOpcodeMap s

/-- `s` with the instruction that has the number `w` in spec/opcode_table.json's numbering stored where the next step
fetches: at `pc`, `pc + 1`, `pc + 2`; bytes past the number are 0. -/
def State.withFetchWord (s : State) (nbits w : Nat) : State :=
  s.placeAtPc (tableByte nbits w 0) (tableByte nbits w 1) (tableByte nbits w 2)

end Sys2Proof.Machine
end

