-- ==== Sys2Proof/Machine/HostPort.lean ====
section
/-! DEFINITION. What the host does around a run and reads from it (R24, R111): reset, load, and the status port. The
output port is the list `State.out` itself (R23), and a run is `step` repeated (R54). -/

namespace Sys2Proof.Machine

/-- The reset input (R107): from any state, all state is at R27's values and nothing of the previous run is kept. -/
def hostReset (_s : State) : State := State.reset

/-- The load (R109): after reset and before the first step (R111), the image's bytes are placed at addresses 0 upward;
an image longer than memory is refused (D15), and a core that is not in its reset state is not loaded
(notes/assumptions/7.md). -/
def hostLoad (image : List Byte) (s : State) : Option State :=
  if s = State.reset ∧ image.length ≤ Config.memSize then some { s with mem := s.mem.place 0 image } else none

/-- The condition the status port gives (R22, R24). -/
inductive Status where
  | running
  | halted
  | faulted (r : FaultRecord)
  deriving DecidableEq, Repr

/-- The status port (R22, R24). -/
def State.status (s : State) : Status :=
  match s.running, s.fault with
  | true, _ => .running
  | false, none => .halted
  | false, some r => .faulted r

end Sys2Proof.Machine
end

