-- ==== Sys2Proof/Safety.lean ====
section
/-! DEFINITION. The terms claims are stated in: the invariant of the state between steps, the instruction the core is
about to run, the state a fault leaves, and the invalid opcode bytes as the spec lists them. -/

namespace Sys2Proof.Machine

/-- What holds of the state between steps, from reset on: memory is in its canonical form (the model's
representation, log entry 12), no cycle is in progress (R25, R27), and a running core has no fault record (R22). -/
abbrev State.Inv (s : State) : Prop :=
  s.mem.wf ∧ s.cycle = none ∧ (s.running = true → s.fault = none)

/-- The instruction the bytes at `pc`, `pc + 1`, `pc + 2` decode to is `i` (R56, R58, R59; addresses modulo 256, R33). -/
abbrev State.Fetches (m : OpcodeMap) (s : State) (i : Instr) : Prop :=
  decodeWith m (s.memRead s.pc) (s.memRead (s.pc + 1#8)) (s.memRead (s.pc + 2#8)) = .ok i

/-- The state that a fault of cause `c` at the opcode byte `op` leaves, as R97 lists it: the record and `running`, and
nothing else. Written apart from `State.raiseFault`, so that claims can hold that operation against it. -/
def State.faultedWith (s : State) (c : Cause) (op : Byte) : State :=
  { s with fault := some { cause := c, pc := s.pc, op := op }, running := false }

/-- The bytes that R95 lists as invalid under the default map: 0x00, 0x02 to 0x10, 0x12 to 0x44, 0x48 to 0x4F, 0x51 to
0x53, 0x57 to 0x81, 0x83, 0x85 to 0x9F, 0xA1, 0xA3 to 0xA6, 0xA8 to 0xFF. -/
abbrev invalidOpcodeByte (op : Byte) : Prop :=
  op.toNat = 0x00 ∨ (0x02 ≤ op.toNat ∧ op.toNat ≤ 0x10) ∨ (0x12 ≤ op.toNat ∧ op.toNat ≤ 0x44) ∨
  (0x48 ≤ op.toNat ∧ op.toNat ≤ 0x4F) ∨ (0x51 ≤ op.toNat ∧ op.toNat ≤ 0x53) ∨ (0x57 ≤ op.toNat ∧ op.toNat ≤ 0x81) ∨
  op.toNat = 0x83 ∨ (0x85 ≤ op.toNat ∧ op.toNat ≤ 0x9F) ∨ op.toNat = 0xA1 ∨ (0xA3 ≤ op.toNat ∧ op.toNat ≤ 0xA6) ∨
  (0xA8 ≤ op.toNat ∧ op.toNat ≤ 0xFF)

end Sys2Proof.Machine
end

