-- ==== Sys2Proof/Certificates/Slice0/Obligations.lean ====
section
/-! DEFINITION. The statements about LS-8 CORE for the provers. A register operand byte that names a register is written
`r.index` for a register `r` (R47), so a statement for all `r` covers every valid operand; bytes of 8 or more are in the
clauses on REG_INDEX_RANGE. Sums on `Byte` are modulo 256 (R7). -/

open Sys2Proof Sys2Proof.Machine

/-! ## Reset, load, the host's ports -/

/-- R107: reset puts every piece of state to its value, from any state, and keeps nothing. -/
def Obligations.ResetPutsEveryStateToItsValue : Prop :=
  ∀ s : State,
    hostReset s = State.reset ∧
    (∀ a : Byte, (hostReset s).memRead a = 0#8) ∧
    (∀ r : Reg, (hostReset s).reg r = if r = .r6 then 0xF4#8 else 0#8) ∧
    (hostReset s).pc = 0#8 ∧ (hostReset s).fl = .none ∧ (hostReset s).running = true ∧
    (hostReset s).fault = none ∧ (hostReset s).out = [] ∧ (hostReset s).cycle = none

/-- R109: an image of 0 to 256 bytes is placed at addresses 0 upward, the other cells stay 0 and everything else is as
after reset; a longer image is refused. That a load is asked for only in the reset state is log entry 7. -/
def Obligations.LoadPlacesImageFromZero : Prop :=
  ∀ image : List Byte,
    (image.length ≤ 256 → ∃ t : State, hostLoad image State.reset = some t ∧
      (∀ a : Byte, t.memRead a = if a.toNat < image.length then image.getD a.toNat 0#8 else 0#8) ∧
      t = { State.reset with mem := t.mem }) ∧
    (256 < image.length → hostLoad image State.reset = none)

/-- The invariant of the state between steps holds after reset: no cycle in progress (R25, R27), no running core with a
fault record (R22), and memory in the canonical form, which is the model's representation (DESIGN CHOICE, log entry 12). -/
def Obligations.ResetStateMeetsInvariant : Prop :=
  State.reset.Inv ∧ ∀ s : State, (hostReset s).Inv

/-- The invariant holds after a load (R109). The canonical form of memory in it is the model's representation (log
entry 12). -/
def Obligations.LoadedStateMeetsInvariant : Prop :=
  ∀ (image : List Byte) (s t : State), hostLoad image s = some t → t.Inv

/-- Every step keeps the invariant: no cycle left in progress (R25), no running core with a fault record (R22), and
memory in the canonical form, which is the model's representation of the cells (DESIGN CHOICE, log entry 12); under every
opcode map, and for `step` itself. -/
def Obligations.EveryStepKeepsInvariant : Prop :=
  (∀ (m : OpcodeMap) (s t : State), s.Inv → stepWith m s = .next t → t.Inv) ∧
  (∀ s t : State, s.Inv → Sys2Proof.Machine.step s = .next t → t.Inv)

/-- R22, R24: the status port gives exactly one of the three conditions, and a running core has no fault record. -/
def Obligations.StatusPortGivesOneCondition : Prop :=
  ∀ s : State, s.Inv →
    (s.status = .running ↔ s.running = true ∧ s.fault = none) ∧
    (s.status = .halted ↔ s.running = false ∧ s.fault = none) ∧
    (∀ f, s.status = .faulted f ↔ s.running = false ∧ s.fault = some f) ∧
    ¬ (s.running = true ∧ s.fault ≠ none)

/-! ## Encoding -/

/-- R41: the fourteen rows of the default opcode map, for every pair of operand bytes, each with its operand count, which
is bits [7:6] of its byte. -/
def Obligations.OpcodeTableRowsDecode : Prop :=
  ∀ a b : Byte,
    (decode 0x01#8 a b = .ok .hlt ∧ decode 0x82#8 a b = .ok (.ldi a b) ∧ decode 0x47#8 a b = .ok (.prn a) ∧
      decode 0xA0#8 a b = .ok (.add a b) ∧ decode 0xA2#8 a b = .ok (.mul a b) ∧ decode 0x45#8 a b = .ok (.push a) ∧
      decode 0x46#8 a b = .ok (.pop a) ∧ decode 0x50#8 a b = .ok (.call a) ∧ decode 0x11#8 a b = .ok .ret ∧
      decode 0x54#8 a b = .ok (.jmp a) ∧ decode 0xA7#8 a b = .ok (.cmp a b) ∧ decode 0x55#8 a b = .ok (.jeq a) ∧
      decode 0x56#8 a b = .ok (.jne a) ∧ decode 0x84#8 a b = .ok (.st a b)) ∧
    (encode .hlt = [0x01#8] ∧ encode (.ldi a b) = [0x82#8, a, b] ∧ encode (.prn a) = [0x47#8, a] ∧
      encode (.add a b) = [0xA0#8, a, b] ∧ encode (.mul a b) = [0xA2#8, a, b] ∧ encode (.push a) = [0x45#8, a] ∧
      encode (.pop a) = [0x46#8, a] ∧ encode (.call a) = [0x50#8, a] ∧ encode .ret = [0x11#8] ∧
      encode (.jmp a) = [0x54#8, a] ∧ encode (.cmp a b) = [0xA7#8, a, b] ∧ encode (.jeq a) = [0x55#8, a] ∧
      encode (.jne a) = [0x56#8, a] ∧ encode (.st a b) = [0x84#8, a, b]) ∧
    (∀ i : Instr, i ∈ [.hlt, .ret] → i.operandCount = 0 ∧ countField (i.opcode defaultOpcodeMap) = 0#2) ∧
    (∀ i : Instr, i ∈ [.prn a, .push a, .pop a, .call a, .jmp a, .jeq a, .jne a] →
      i.operandCount = 1 ∧ countField (i.opcode defaultOpcodeMap) = 1#2) ∧
    (∀ i : Instr, i ∈ [.ldi a b, .add a b, .mul a b, .cmp a b, .st a b] →
      i.operandCount = 2 ∧ countField (i.opcode defaultOpcodeMap) = 2#2)

/-- R53: the twelve bytes of the worked encoding, written bit by bit in the form of the program file, decode to its five
instructions (and one word for each of the families the example lacks, from R41 and R46). -/
def Obligations.WordsWrittenOutDecode : Prop :=
  decode 0b10000010#8 0b00000000#8 0b00001000#8 = .ok (.ldi 0#8 8#8) ∧
  decode 0b10000010#8 0b00000001#8 0b00001001#8 = .ok (.ldi 1#8 9#8) ∧
  decode 0b10100000#8 0b00000000#8 0b00000001#8 = .ok (.add 0#8 1#8) ∧
  decode 0b01000111#8 0b00000000#8 0b00000001#8 = .ok (.prn 0#8) ∧
  decode 0b00000001#8 0b00000000#8 0b00000000#8 = .ok .hlt ∧
  decode 0b01000101#8 0b00000011#8 0b00000000#8 = .ok (.push 3#8) ∧
  decode 0b01010110#8 0b00000010#8 0b00000000#8 = .ok (.jne 2#8) ∧
  decode 0b10000100#8 0b00000010#8 0b00000011#8 = .ok (.st 2#8 3#8)

/-- R44, R45, R46, R49: under every opcode map this hardware can have, an encoded instruction decodes to itself, whatever
bytes follow it in memory. -/
def Obligations.DecodeOfEncodeIsInstruction : Prop :=
  ∀ (m : OpcodeMap) (i : Instr) (rest : List Byte), m.wellFormed →
    decodeWith m ((encodeWith m i ++ rest).getD 0 0#8) ((encodeWith m i ++ rest).getD 1 0#8)
      ((encodeWith m i ++ rest).getD 2 0#8) = .ok i

/-- R43, R45: what the decoder answers encodes back to the first 1 + n of the bytes it was given, n = bits [7:6]. -/
def Obligations.EncodeOfDecodeIsBytes : Prop :=
  ∀ (m : OpcodeMap) (op a b : Byte) (i : Instr), m.wellFormed → decodeWith m op a b = .ok i →
    encodeWith m i = [op, a, b].take (1 + (countField op).toNat)

/-- R49: operand bytes the format does not declare do not affect what is decoded. -/
def Obligations.UndeclaredOperandBytesAreIgnored : Prop :=
  ∀ (m : OpcodeMap) (op a b a' b' : Byte) (i : Instr), decodeWith m op a b = .ok i →
    (i.operandCount = 0 → decodeWith m op a' b' = .ok i) ∧
    (i.operandCount = 1 → decodeWith m op a b' = .ok i)

/-- 30_encoding.md, "How to read opcode_table.json": an instruction placed at `pc` from its number in the opcode table's
numbering is the one the next step fetches; besides memory only `running` and the fault record are set for it. That these
two are set is the model's choice (log entry 8), and the order of the bytes in the number is log entry 3. -/
def Obligations.TableWordPlacedAtPcIsFetchedNext : Prop :=
  ∀ (s : State) (nbits w : Nat) (i : Instr), decodeTableWord nbits w = some i →
    (s.withFetchWord nbits w).Fetches defaultOpcodeMap i ∧
    (∀ a : Byte, a ≠ s.pc → a ≠ s.pc + 1#8 → a ≠ s.pc + 2#8 → (s.withFetchWord nbits w).memRead a = s.memRead a) ∧
    s.withFetchWord nbits w = { s with mem := (s.withFetchWord nbits w).mem, running := true, fault := none }

/-! ## The step -/

/-- R64: when the bytes at `pc` decode to a well-formed instruction, the step of a running core is `exec` of it with those
bytes latched, which answers a next state, and the latch is discarded after it. -/
def Obligations.StepRunsTheDecodedInstruction : Prop :=
  ∀ (s : State) (i : Instr), s.running = true → s.Fetches defaultOpcodeMap i → i.wellFormed = true →
    ∃ t : State,
      exec i { s with
          cycle := some (Latch.mk (s.memRead s.pc) (s.memRead (s.pc + 1#8)) (s.memRead (s.pc + 2#8))) } = .next t ∧
      Sys2Proof.Machine.step s = .next { t with cycle := none }

/-- R54, R106: a core that has stopped takes no step and stays in its state for good; only reset leaves it. That `step`
answers the same state there is log entry 4. -/
def Obligations.StoppedCoreStaysInItsState : Prop :=
  ∀ (s : State) (n : Nat), s.running = false →
    Sys2Proof.Machine.step s = .next s ∧ Host.Core.run Sys2Proof.core n s = .next s ∧ (hostReset s).running = true

/-- R63, R65, R97: under every opcode map a step has a next state; it completes an instruction and leaves the fault record
as it was, or it changes nothing but the fault record, which names this `pc` and its opcode byte, and `running`. -/
def Obligations.EveryStepCompletesOrFaultsPrecisely : Prop :=
  ∀ (m : OpcodeMap) (s : State), s.cycle = none →
    ∃ t : State, stepWith m s = .next t ∧
      (t.fault = s.fault ∨ ∃ c : Cause, t = s.faultedWith c (s.memRead s.pc))

/-- R59: under every opcode map, a byte that is not in the map is INVALID_OPCODE and nothing else happens; a byte of the
map decodes. -/
def Obligations.ByteOutsideOpcodeMapFaults : Prop :=
  ∀ (m : OpcodeMap) (s : State), s.running = true → s.cycle = none →
    (s.memRead s.pc ∉ m.bytes → stepWith m s = .next (s.faultedWith .invalidOpcode (s.memRead s.pc))) ∧
    (s.memRead s.pc ∈ m.bytes → ∃ i : Instr, s.Fetches m i)

/-- R95: the bytes the rule lists, and no others, raise INVALID_OPCODE, cause code 1, recording `pc` and the byte. -/
def Obligations.ListedBytesAreInvalidOpcodes : Prop :=
  Cause.invalidOpcode.code = 1 ∧
  ∀ s : State, s.running = true → s.cycle = none →
    (invalidOpcodeByte (s.memRead s.pc) →
      Sys2Proof.Machine.step s = .next (s.faultedWith .invalidOpcode (s.memRead s.pc))) ∧
    (¬ invalidOpcodeByte (s.memRead s.pc) → ∃ i : Instr, s.Fetches defaultOpcodeMap i)

/-- R96: the instructions with a register operand byte of 8 or more raise REG_INDEX_RANGE, cause code 3, recording `pc`
and the opcode byte, with no other effect; HALT and RETURN cannot; and no instruction whose register operands are 0 to 7
faults. -/
def Obligations.RegisterOperandOutOfRangeFaults : Prop :=
  Cause.regIndexRange.code = 3 ∧
  (∀ (s : State) (i : Instr) (a b : Byte), s.running = true → s.cycle = none → s.Fetches defaultOpcodeMap i →
    (i ∈ [.ldi a b, .prn a, .push a, .pop a, .call a, .jmp a, .jeq a, .jne a] → 7 < a.toNat →
      Sys2Proof.Machine.step s = .next (s.faultedWith .regIndexRange (s.memRead s.pc))) ∧
    (i ∈ [.add a b, .mul a b, .cmp a b, .st a b] → 7 < a.toNat ∨ 7 < b.toNat →
      Sys2Proof.Machine.step s = .next (s.faultedWith .regIndexRange (s.memRead s.pc))) ∧
    (i ∈ [.hlt, .ret] ∨
      (i ∈ [.ldi a b, .prn a, .push a, .pop a, .call a, .jmp a, .jeq a, .jne a] ∧ a.toNat ≤ 7) ∨
      (i ∈ [.add a b, .mul a b, .cmp a b, .st a b] ∧ a.toNat ≤ 7 ∧ b.toNat ≤ 7) →
      ∃ t : State, Sys2Proof.Machine.step s = .next t ∧ t.fault = s.fault))

/-- R80, R98: an ALU request with an operation other than the three raises UNSUPPORTED_ALU_OP, cause code 2, before any
state changes, and the register check comes first (R99). How such an operation is written is log entry 6. -/
def Obligations.UnsupportedAluRequestFaults : Prop :=
  Cause.unsupportedAluOp.code = 2 ∧
  (∀ (tag : Nat) (rA rB : Reg) (s : State) (l : Latch), s.cycle = some l →
    execAluOp (.other tag) rA.index rB.index s = .next (s.faultedWith .unsupportedAluOp l.op)) ∧
  (∀ (tag : Nat) (a b : Byte) (s : State) (l : Latch), s.cycle = some l → 7 < a.toNat ∨ 7 < b.toNat →
    execAluOp (.other tag) a b s = .next (s.faultedWith .regIndexRange l.op))

/-- R80, R98: no program reaches UNSUPPORTED_ALU_OP: a fault record that a step writes has another cause. -/
def Obligations.NoStepRaisesUnsupportedAluOp : Prop :=
  ∀ (m : OpcodeMap) (s t : State) (f : FaultRecord), stepWith m s = .next t → t.fault = some f → t.fault ≠ s.fault →
    f.cause = .invalidOpcode ∨ f.cause = .regIndexRange

/-! ## Whole-machine rules -/

/-- R20: `running` is true after reset; no step sets it; and only HALT, or a fault, which records itself, clears it. -/
def Obligations.OnlyHaltOrFaultClearsRunning : Prop :=
  (∀ s : State, (hostReset s).running = true) ∧
  ∀ (m : OpcodeMap) (s t : State), s.Inv → stepWith m s = .next t →
    (t.running = true → s.running = true) ∧
    (s.running = true → t.running = false → s.Fetches m .hlt ∨ t.fault ≠ none) ∧
    (s.running = true → (s.Fetches m .hlt ∨ t.fault ≠ none) → t.running = false)

/-- R21: once set, the fault record is never changed or cleared, however many steps are taken. -/
def Obligations.FaultRecordIsNeverChanged : Prop :=
  ∀ (s t : State) (f : FaultRecord) (n : Nat), s.Inv → s.fault = some f → Host.Core.run Sys2Proof.core n s = .next t →
    t.fault = some f ∧ t = s

/-- R17, R18, R79: FL is NONE after reset; a step that runs no COMPARE on registers keeps FL, and so does a run of any
number of such steps; a step that runs one leaves FL other than NONE; a step that changes FL leaves it other than NONE; and
once FL is not NONE, no run of any number of steps ends with it NONE. -/
def Obligations.FlagIsNeverNoneAgain : Prop :=
  (∀ s : State, (hostReset s).fl = .none) ∧
  (∀ (m : OpcodeMap) (s t : State), stepWith m s = .next t →
    (s.running = false ∨ ∀ rA rB : Reg, ¬ s.Fetches m (.cmp rA.index rB.index)) → t.fl = s.fl) ∧
  (∀ (s t : State) (n : Nat), Host.Core.run Sys2Proof.core n s = .next t →
    (∀ (k : Nat) (u : State), k < n → Host.Core.run Sys2Proof.core k s = .next u →
      u.running = false ∨ ∀ rA rB : Reg, ¬ u.Fetches defaultOpcodeMap (.cmp rA.index rB.index)) → t.fl = s.fl) ∧
  (∀ (m : OpcodeMap) (s : State) (rA rB : Reg), s.running = true → s.Fetches m (.cmp rA.index rB.index) →
    ∃ t : State, stepWith m s = .next t ∧ t.fl ≠ .none) ∧
  (∀ (m : OpcodeMap) (s t : State), stepWith m s = .next t → t.fl ≠ s.fl → t.fl ≠ .none) ∧
  (∀ (s t : State) (n : Nat), s.fl ≠ .none → Host.Core.run Sys2Proof.core n s = .next t → t.fl ≠ .none)

/-- R18: FL is written only by COMPARE, so a step that runs none keeps it; only JUMP-IF-EQUAL and JUMP-IF-NOT-EQUAL read
it; and no instruction moves it to a register, to memory or to the output. -/
def Obligations.FlagIsWrittenAndReadOnlyWhereSaid : Prop :=
  (∀ (m : OpcodeMap) (s t : State), stepWith m s = .next t → (∀ a b : Byte, ¬ s.Fetches m (.cmp a b)) → t.fl = s.fl) ∧
  (∀ (i : Instr) (f : Flag) (s t u : State), exec i s = .next t → exec i { s with fl := f } = .next u →
    ((∀ a b, i ≠ .cmp a b) → t.fl = s.fl) ∧
    (u.regs = t.regs ∧ u.mem = t.mem ∧ u.out = t.out) ∧
    ((∀ a, i ≠ .jeq a ∧ i ≠ .jne a) → u = { t with fl := u.fl }) ∧
    ((∃ rA rB : Reg, i = .cmp rA.index rB.index) → u = t))

/-- R23, R70: a step appends to the output stream exactly when it runs a PRINT-REGISTER with a valid operand, and then
the register's value; what is there is never changed. -/
def Obligations.OutputGrowsOnlyByPrint : Prop :=
  ∀ (m : OpcodeMap) (s t : State), stepWith m s = .next t →
    (∀ r : Reg, s.running = true → s.Fetches m (.prn r.index) → t.out = s.out ++ [s.reg r]) ∧
    ((s.running = false ∨ ∀ r : Reg, ¬ s.Fetches m (.prn r.index)) → t.out = s.out)

/-- R10 to R13, R72: the registers an instruction writes: LDI, ADD, MUL and POP write A; PUSH, POP, CALL and RET write SP
= R6; HLT, PRN, JMP, CMP, JEQ, JNE and ST write none; every other register is as it was. -/
def Obligations.RegistersAreUnchangedButDestinations : Prop :=
  ∀ (i : Instr) (s t : State) (r : Reg), exec i s = .next t →
    ((i = .hlt ∨ (∃ a, i = .prn a ∨ i = .jmp a ∨ i = .jeq a ∨ i = .jne a) ∨ ∃ a b, i = .cmp a b ∨ i = .st a b) →
      t.regs = s.regs) ∧
    (∀ a b : Byte, i = .ldi a b ∨ i = .add a b ∨ i = .mul a b → a ≠ r.index → t.reg r = s.reg r) ∧
    (∀ a : Byte, i = .pop a → a ≠ r.index → r ≠ .r6 → t.reg r = s.reg r) ∧
    ((i = .ret ∨ ∃ a, i = .push a ∨ i = .call a) → r ≠ .r6 → t.reg r = s.reg r)

/-- R30: memory is unchanged outside the cell an instruction stores to: ST stores at `x[A]`; PUSH and CALL at SP - 1, the
SP after the decrement; the other eleven instructions store nothing. -/
def Obligations.MemoryIsUnchangedOutsideTheStoredCell : Prop :=
  ∀ (i : Instr) (s t : State) (addr : Byte), exec i s = .next t →
    (∀ a b : Byte, i = .st a b → (∀ rA : Reg, a = rA.index → addr ≠ s.reg rA) → t.memRead addr = s.memRead addr) ∧
    (∀ a : Byte, i = .push a ∨ i = .call a → addr ≠ s.decSp.sp → t.memRead addr = s.memRead addr) ∧
    s.decSp.sp = s.reg .r6 - 1#8 ∧
    ((i = .hlt ∨ i = .ret ∨
      (∃ a, i = .prn a ∨ i = .pop a ∨ i = .jmp a ∨ i = .jeq a ∨ i = .jne a) ∨
      (∃ a b, i = .ldi a b ∨ i = .add a b ∨ i = .mul a b ∨ i = .cmp a b)) → t.memRead addr = s.memRead addr)

/-- R63, R69 to R91: what is left of the status and the output: with register operands in range no instruction but HLT
changes `running`, none changes the fault record or the latch, none but PRN the output. -/
def Obligations.StatusAndOutputAreUnchangedButByHaltAndPrint : Prop :=
  ∀ (i : Instr) (s t : State), i.wellFormed = true → exec i s = .next t →
    t.fault = s.fault ∧ t.cycle = s.cycle ∧ (i ≠ .hlt → t.running = s.running) ∧
    ((∀ a, i ≠ .prn a) → t.out = s.out)

/-- R45, R62, R66: a completed instruction that is no control transfer (HALT included) leaves `pc` advanced by 1 + n
modulo 256, n the bits [7:6] of the opcode byte fetched, whatever the instruction wrote over its own bytes. -/
def Obligations.PcAdvancesByInstructionLength : Prop :=
  ∀ (m : OpcodeMap) (s : State) (i : Instr), m.wellFormed → s.running = true → s.Fetches m i → i.wellFormed = true →
    (∀ a, i ≠ .call a ∧ i ≠ .jmp a ∧ i ≠ .jeq a ∧ i ≠ .jne a) → i ≠ .ret →
    ∃ t : State, stepWith m s = .next t ∧
      t.pc.toNat = (s.pc.toNat + 1 + (countField (s.memRead s.pc)).toNat) % 256

/-- R67: a target of 0 is taken like any other: JUMP, a taken conditional jump, CALL (whose target is read after SP is
decremented, R86) and RETURN each send `pc` to 0. -/
def Obligations.TargetZeroIsTaken : Prop :=
  ∀ (r : Reg) (s : State),
    (s.reg r = 0#8 → exec (.jmp r.index) s = .next { s with pc := 0#8 }) ∧
    (s.reg r = 0#8 → s.fl = .equal → exec (.jeq r.index) s = .next { s with pc := 0#8 }) ∧
    (s.reg r = 0#8 → s.fl ≠ .equal → exec (.jne r.index) s = .next { s with pc := 0#8 }) ∧
    (s.decSp.reg r = 0#8 → ∃ t : State, exec (.call r.index) s = .next t ∧ t.pc = 0#8) ∧
    (s.memRead (s.reg .r6) = 0#8 → ∃ t : State, exec .ret s = .next t ∧ t.pc = 0#8)

/-! ## Memory -/

/-- The model's representation, not a rule of the spec: that memory is a list in the canonical form is the DESIGN CHOICE
of log entry 12. Two memories in that form that read alike at every one of the 256 addresses (R29) are equal data, so that
equality of states says no more than equality of the spec's cells. -/
def Obligations.MemoriesThatReadAlikeAreEqual : Prop :=
  ∀ m₁ m₂ : Memory, m₁.wf → m₂.wf → (∀ a : Nat, a < 256 → m₁.read a = m₂.read a) → m₁ = m₂

/-- R40, R113: a STORE over one of its own bytes stores what its latched operands say and does not change its own length;
a byte stored where the next instruction starts is the opcode byte fetched next. -/
def Obligations.StoreOverCodeIsSeenOnlyByLaterFetches : Prop :=
  ∀ (s : State) (rA rB : Reg), s.running = true → s.cycle = none → s.Fetches defaultOpcodeMap (.st rA.index rB.index) →
    ∃ t : State, Sys2Proof.Machine.step s = .next t ∧ t = { s with mem := t.mem, pc := s.pc + 3#8 } ∧
      (∀ a : Byte, t.memRead a = if a = s.reg rA then s.reg rB else s.memRead a) ∧
      (s.reg rA = s.pc + 3#8 → t.fetch.op = s.reg rB)

/-! ## System and output -/

/-- R69, R66, R54: HALT clears `running`, `pc` still advances by 1, and no further instruction executes: however many
steps are taken from a core that fetches HALT, the state is the one HALT left. -/
def Obligations.HaltEndsTheRun : Prop :=
  (∀ s : State, exec .hlt s = .next { s with running := false, pc := s.pc + 1#8 }) ∧
  (∀ (s : State) (n : Nat), s.running = true → s.cycle = none → s.Fetches defaultOpcodeMap .hlt →
    Host.Core.run Sys2Proof.core (n + 1) s = .next { s with running := false, pc := s.pc + 1#8 })

/-- R70: PRINT-REGISTER appends the register's value to the output; a register out of range emits nothing. -/
def Obligations.PrintEmitsRegister : Prop :=
  (∀ (r : Reg) (s : State),
    exec (.prn r.index) s = .next { s with out := s.out ++ [s.reg r], pc := s.pc + 2#8 }) ∧
  (∀ (a : Byte) (s : State) (l : Latch), s.cycle = some l → 7 < a.toNat →
    exec (.prn a) s = .next (s.faultedWith .regIndexRange l.op))

/-! ## Load and store -/

/-- R73: LOAD-IMMEDIATE writes every literal 0 to 255 as it is, and nothing else; R6 is written like any other. -/
def Obligations.LoadImmediateWritesLiteral : Prop :=
  (∀ (r : Reg) (imm : Byte) (s : State), ∃ t : State, exec (.ldi r.index imm) s = .next t ∧
    t.reg r = imm ∧ (∀ q : Reg, q ≠ r → t.reg q = s.reg q) ∧ t = { s with regs := t.regs, pc := s.pc + 3#8 }) ∧
  (∀ (a imm : Byte) (s : State) (l : Latch), s.cycle = some l → 7 < a.toNat →
    exec (.ldi a imm) s = .next (s.faultedWith .regIndexRange l.op)) ∧
  (∀ a imm : Byte, encode (.ldi a imm) = [0x82#8, a, imm])

/-- R75: STORE sets the cell at `x[A]` to `x[B]`, and nothing else. -/
def Obligations.StoreWritesCell : Prop :=
  (∀ (rA rB : Reg) (s : State), ∃ t : State, exec (.st rA.index rB.index) s = .next t ∧
    t.memRead (s.reg rA) = s.reg rB ∧ (∀ a : Byte, a ≠ s.reg rA → t.memRead a = s.memRead a) ∧
    t = { s with mem := t.mem, pc := s.pc + 3#8 }) ∧
  (∀ (a b : Byte) (s : State) (l : Latch), s.cycle = some l → 7 < a.toNat ∨ 7 < b.toNat →
    exec (.st a b) s = .next (s.faultedWith .regIndexRange l.op)) ∧
  (∀ a b : Byte, encode (.st a b) = [0x84#8, a, b])

/-! ## ALU -/

/-- R76, R77: ADD writes the exact sum modulo 256 to the register named by A, and nothing else. -/
def Obligations.AddWritesSumModulo256 : Prop :=
  (∀ (rA rB : Reg) (s : State), ∃ t : State, exec (.add rA.index rB.index) s = .next t ∧
    (t.reg rA).toNat = ((s.reg rA).toNat + (s.reg rB).toNat) % 256 ∧
    (∀ q : Reg, q ≠ rA → t.reg q = s.reg q) ∧ t = { s with regs := t.regs, pc := s.pc + 3#8 }) ∧
  (∀ (a b : Byte) (s : State) (l : Latch), s.cycle = some l → 7 < a.toNat ∨ 7 < b.toNat →
    exec (.add a b) s = .next (s.faultedWith .regIndexRange l.op)) ∧
  (∀ a b : Byte, encode (.add a b) = [0xA0#8, a, b])

/-- R76, R78: MULTIPLY writes the low 8 bits of the exact product to the register named by A, and nothing else. -/
def Obligations.MultiplyWritesProductModulo256 : Prop :=
  (∀ (rA rB : Reg) (s : State), ∃ t : State, exec (.mul rA.index rB.index) s = .next t ∧
    (t.reg rA).toNat = ((s.reg rA).toNat * (s.reg rB).toNat) % 256 ∧
    (∀ q : Reg, q ≠ rA → t.reg q = s.reg q) ∧ t = { s with regs := t.regs, pc := s.pc + 3#8 }) ∧
  (∀ (a b : Byte) (s : State) (l : Latch), s.cycle = some l → 7 < a.toNat ∨ 7 < b.toNat →
    exec (.mul a b) s = .next (s.faultedWith .regIndexRange l.op)) ∧
  (∀ a b : Byte, encode (.mul a b) = [0xA2#8, a, b])

/-- R79: COMPARE sets FL by the unsigned order of the two values, and changes nothing else. -/
def Obligations.CompareSetsFlagByUnsignedOrder : Prop :=
  (∀ (rA rB : Reg) (s : State), ∃ f : Flag, exec (.cmp rA.index rB.index) s = .next { s with fl := f, pc := s.pc + 3#8 } ∧
    (f = .less ↔ (s.reg rA).toNat < (s.reg rB).toNat) ∧
    (f = .greater ↔ (s.reg rB).toNat < (s.reg rA).toNat) ∧
    (f = .equal ↔ s.reg rA = s.reg rB) ∧ f ≠ .none) ∧
  (∀ (a b : Byte) (s : State) (l : Latch), s.cycle = some l → 7 < a.toNat ∨ 7 < b.toNat →
    exec (.cmp a b) s = .next (s.faultedWith .regIndexRange l.op))

/-- R19: FL as bits is 0, 1, 2 or 4, one value for each state; 3, 5, 6 and 7 never occur. -/
def Obligations.FlagBitsAreOneHot : Prop :=
  Flag.none.bits = 0b000#3 ∧ Flag.equal.bits = 0b001#3 ∧ Flag.greater.bits = 0b010#3 ∧ Flag.less.bits = 0b100#3 ∧
  (∀ f : Flag, f.bits ≠ 3#3 ∧ f.bits ≠ 5#3 ∧ f.bits ≠ 6#3 ∧ f.bits ≠ 7#3) ∧
  (∀ f g : Flag, f.bits = g.bits → f = g)

/-! ## Stack -/

/-- R81, R82: PUSH decrements SP modulo 256 and writes the register's value, read after the decrement, at the new SP. -/
def Obligations.PushWritesBelowStackTop : Prop :=
  (∀ (r : Reg) (s : State), ∃ t : State, exec (.push r.index) s = .next t ∧
    t.reg .r6 = s.reg .r6 - 1#8 ∧ (∀ q : Reg, q ≠ .r6 → t.reg q = s.reg q) ∧
    t.memRead (s.reg .r6 - 1#8) = (if r = .r6 then s.reg .r6 - 1#8 else s.reg r) ∧
    (∀ a : Byte, a ≠ s.reg .r6 - 1#8 → t.memRead a = s.memRead a) ∧
    t = { s with regs := t.regs, mem := t.mem, pc := s.pc + 2#8 }) ∧
  (∀ (a : Byte) (s : State) (l : Latch), s.cycle = some l → 7 < a.toNat →
    exec (.push a) s = .next (s.faultedWith .regIndexRange l.op)) ∧
  (∀ a : Byte, encode (.push a) = [0x45#8, a])

/-- R81, R83: POP loads the byte at SP and then increments SP modulo 256; POP R6 leaves the loaded value plus 1. -/
def Obligations.PopLoadsStackTop : Prop :=
  (∀ (r : Reg) (s : State), ∃ t : State, exec (.pop r.index) s = .next t ∧
    (r ≠ .r6 → t.reg r = s.memRead (s.reg .r6) ∧ t.reg .r6 = s.reg .r6 + 1#8) ∧
    (r = .r6 → t.reg .r6 = s.memRead (s.reg .r6) + 1#8) ∧
    (∀ q : Reg, q ≠ r → q ≠ .r6 → t.reg q = s.reg q) ∧
    t = { s with regs := t.regs, pc := s.pc + 2#8 }) ∧
  (∀ (a : Byte) (s : State) (l : Latch), s.cycle = some l → 7 < a.toNat →
    exec (.pop a) s = .next (s.faultedWith .regIndexRange l.op))

/-- R83, C7: PUSH r then POP r leaves every register as it was, R6 included, and only the cell below the stack top may
differ. -/
def Obligations.PushThenPopRestoresRegisters : Prop :=
  ∀ (r : Reg) (s : State), ∃ t u : State, exec (.push r.index) s = .next t ∧ exec (.pop r.index) t = .next u ∧
    (∀ q : Reg, u.reg q = s.reg q) ∧ (∀ a : Byte, a ≠ s.reg .r6 - 1#8 → u.memRead a = s.memRead a)

/-- R83, C7: PUSH r then POP q for another register q passes the pushed value and restores SP, unless q is R6, which is
left at the pushed value plus 1. -/
def Obligations.PushThenPopMovesValue : Prop :=
  ∀ (r q : Reg) (s : State), q ≠ r → ∃ t u : State, exec (.push r.index) s = .next t ∧ exec (.pop q.index) t = .next u ∧
    (q ≠ .r6 → u.reg q = (if r = .r6 then s.reg .r6 - 1#8 else s.reg r) ∧ u.reg .r6 = s.reg .r6) ∧
    (q = .r6 → u.reg .r6 = s.reg r + 1#8) ∧
    (∀ p : Reg, p ≠ q → p ≠ .r6 → u.reg p = s.reg p)

/-! ## Control flow -/

/-- R86: CALL pushes the address after it, `u8(pc + 2)`, and jumps to the register's value, read after the decrement. -/
def Obligations.CallPushesReturnAddress : Prop :=
  (∀ (r : Reg) (s : State), ∃ t : State, exec (.call r.index) s = .next t ∧
    t.reg .r6 = s.reg .r6 - 1#8 ∧ (∀ q : Reg, q ≠ .r6 → t.reg q = s.reg q) ∧
    t.memRead (s.reg .r6 - 1#8) = s.pc + 2#8 ∧ (∀ a : Byte, a ≠ s.reg .r6 - 1#8 → t.memRead a = s.memRead a) ∧
    t = { s with regs := t.regs, mem := t.mem, pc := if r = .r6 then s.reg .r6 - 1#8 else s.reg r }) ∧
  (∀ (a : Byte) (s : State) (l : Latch), s.cycle = some l → 7 < a.toNat →
    exec (.call a) s = .next (s.faultedWith .regIndexRange l.op))

/-- R87: RETURN jumps to the byte at SP and increments SP modulo 256; no other register and no cell changes. -/
def Obligations.ReturnPopsTarget : Prop :=
  ∀ s : State, ∃ t : State, exec .ret s = .next t ∧
    t.reg .r6 = s.reg .r6 + 1#8 ∧ (∀ q : Reg, q ≠ .r6 → t.reg q = s.reg q) ∧
    t = { s with regs := t.regs, pc := s.memRead (s.reg .r6) }

/-- R87: a RETURN that finds SP and the stack cell as a CALL left them resumes at the instruction after the CALL, with SP
as it was before it. -/
def Obligations.ReturnResumesAfterCall : Prop :=
  ∀ (r : Reg) (s t t' : State), exec (.call r.index) s = .next t →
    t'.reg .r6 = t.reg .r6 → t'.memRead (t.reg .r6) = t.memRead (t.reg .r6) →
    ∃ u : State, exec .ret t' = .next u ∧ u.pc = s.pc + 2#8 ∧ u.reg .r6 = s.reg .r6 ∧
      (∀ q : Reg, q ≠ .r6 → u.reg q = t'.reg q) ∧ u.mem = t'.mem

/-- R88: JUMP sends `pc` to the register's value and changes nothing else. -/
def Obligations.JumpGoesToRegister : Prop :=
  (∀ (r : Reg) (s : State), exec (.jmp r.index) s = .next { s with pc := s.reg r }) ∧
  (∀ (a : Byte) (s : State) (l : Latch), s.cycle = some l → 7 < a.toNat →
    exec (.jmp a) s = .next (s.faultedWith .regIndexRange l.op))

/-- R90: JUMP-IF-EQUAL is taken exactly when FL = EQUAL; its register operand is checked whether or not it is. -/
def Obligations.JumpIfEqualTakenOnEqual : Prop :=
  (∀ (r : Reg) (s : State),
    (s.fl = .equal → exec (.jeq r.index) s = .next { s with pc := s.reg r }) ∧
    (s.fl ≠ .equal → exec (.jeq r.index) s = .next { s with pc := s.pc + 2#8 })) ∧
  (∀ (a : Byte) (s : State) (l : Latch), s.cycle = some l → 7 < a.toNat →
    exec (.jeq a) s = .next (s.faultedWith .regIndexRange l.op)) ∧
  (∀ a : Byte, encode (.jeq a) = [0x55#8, a])

/-- R91: JUMP-IF-NOT-EQUAL is taken exactly when FL is LESS, GREATER or NONE; its register operand is checked whether or
not it is. -/
def Obligations.JumpIfNotEqualTakenOtherwise : Prop :=
  (∀ (r : Reg) (s : State),
    (s.fl = .less ∨ s.fl = .greater ∨ s.fl = .none → exec (.jne r.index) s = .next { s with pc := s.reg r }) ∧
    (s.fl = .equal → exec (.jne r.index) s = .next { s with pc := s.pc + 2#8 })) ∧
  (∀ (a : Byte) (s : State) (l : Latch), s.cycle = some l → 7 < a.toNat →
    exec (.jne a) s = .next (s.faultedWith .regIndexRange l.op)) ∧
  (∀ a : Byte, encode (.jne a) = [0x56#8, a])
end

