-- ==== Sys2Proof/Laws/Decode.lean ====
section
/-! SUPPORT. Small facts about the opcode map, the decoder and the encoder. -/

namespace Sys2Proof

theorem defaultOpcodeMap_wellFormed : defaultOpcodeMap.wellFormed := by decide

/-- An instruction's opcode byte is one of its map's (R41). -/
theorem Instr.opcode_mem (m : OpcodeMap) (i : Instr) : i.opcode m ∈ m.bytes := by
  cases i <;> simp [Instr.opcode, OpcodeMap.bytes]

/-- Under a well-formed map, bits [7:6] of an instruction's opcode byte are its operand count (R43). -/
theorem Instr.countField_opcode {m : OpcodeMap} (h : m.wellFormed) (i : Instr) :
    (countField (i.opcode m)).toNat = i.operandCount := by
  have hc := h.2
  simp only [OpcodeMap.bytes, opcodeCounts, List.map_cons, List.map_nil, List.cons.injEq, and_true] at hc
  cases i <;> simp only [Instr.opcode, Instr.operandCount] <;> omega

/-- Each row of the table holds its instruction's own opcode byte. -/
theorem OpcodeMap.opcode_of_mem_rows {m : OpcodeMap} {a b : Byte} {row : Byte × Instr} (h : row ∈ m.rows a b) :
    row.2.opcode m = row.1 := by
  simp only [OpcodeMap.rows, List.mem_cons, List.not_mem_nil, or_false] at h
  rcases h with h | h | h | h | h | h | h | h | h | h | h | h | h | h <;> rw [h] <;> rfl

/-- An instruction the decoder answers is a row of the table with the opcode byte given (R44). -/
theorem mem_rows_of_decodeWith {m : OpcodeMap} {op a b : Byte} {i : Instr} (h : decodeWith m op a b = .ok i) :
    (op, i) ∈ m.rows a b := by
  unfold decodeWith at h
  split at h
  · next row hrow =>
    obtain ⟨k, j⟩ := row
    have hk : k = op := by simpa using List.find?_some hrow
    cases h
    exact hk ▸ List.mem_of_find?_eq_some hrow
  · cases h

theorem opcode_of_decodeWith {m : OpcodeMap} {op a b : Byte} {i : Instr} (h : decodeWith m op a b = .ok i) :
    i.opcode m = op :=
  OpcodeMap.opcode_of_mem_rows (mem_rows_of_decodeWith h)

/-- The decoder rejects exactly the bytes that are not in the map, and by name (R42, R59). -/
theorem decodeWith_eq_error {m : OpcodeMap} {op a b : Byte} {e : DecodeError} :
    decodeWith m op a b = .error e ↔ op ∉ m.bytes ∧ e = .invalidOpcode op := by
  have keys : (m.rows a b).map Prod.fst = m.bytes := rfl
  have hnone : (m.rows a b).find? (fun row => row.1 == op) = none ↔ op ∉ m.bytes := by
    rw [← keys, List.find?_eq_none, List.mem_map]
    constructor
    · rintro h ⟨row, hrow, rfl⟩; exact h row hrow (by simp)
    · intro h row hrow hk; exact h ⟨row, hrow, by simpa using hk⟩
  unfold decodeWith
  split
  · next row hrow =>
    refine ⟨fun h => (by cases h), fun h => ?_⟩
    rw [hnone.mpr h.1] at hrow; cases hrow
  · next hrow => simp [hnone.mp hrow, eq_comm]

end Sys2Proof
end

