-- ==== Sys2Proof/Laws/State.lean ====
section
/-! SUPPORT. What each named update of the state does to each field: one lemma per field per update. -/

namespace Sys2Proof.Machine

variable (s : State)

/-! ### setReg -/

@[simp] theorem State.setReg_regs (r : Reg) (v : Byte) : (s.setReg r v).regs = s.regs.set r v := rfl
@[simp] theorem State.setReg_pc (r : Reg) (v : Byte) : (s.setReg r v).pc = s.pc := rfl
@[simp] theorem State.setReg_fl (r : Reg) (v : Byte) : (s.setReg r v).fl = s.fl := rfl
@[simp] theorem State.setReg_running (r : Reg) (v : Byte) : (s.setReg r v).running = s.running := rfl
@[simp] theorem State.setReg_fault (r : Reg) (v : Byte) : (s.setReg r v).fault = s.fault := rfl
@[simp] theorem State.setReg_out (r : Reg) (v : Byte) : (s.setReg r v).out = s.out := rfl
@[simp] theorem State.setReg_mem (r : Reg) (v : Byte) : (s.setReg r v).mem = s.mem := rfl
@[simp] theorem State.setReg_cycle (r : Reg) (v : Byte) : (s.setReg r v).cycle = s.cycle := rfl

/-! ### memWrite -/

@[simp] theorem State.memWrite_regs (a v : Byte) : (s.memWrite a v).regs = s.regs := rfl
@[simp] theorem State.memWrite_pc (a v : Byte) : (s.memWrite a v).pc = s.pc := rfl
@[simp] theorem State.memWrite_fl (a v : Byte) : (s.memWrite a v).fl = s.fl := rfl
@[simp] theorem State.memWrite_running (a v : Byte) : (s.memWrite a v).running = s.running := rfl
@[simp] theorem State.memWrite_fault (a v : Byte) : (s.memWrite a v).fault = s.fault := rfl
@[simp] theorem State.memWrite_out (a v : Byte) : (s.memWrite a v).out = s.out := rfl
@[simp] theorem State.memWrite_mem (a v : Byte) : (s.memWrite a v).mem = s.mem.write a.toNat v := rfl
@[simp] theorem State.memWrite_cycle (a v : Byte) : (s.memWrite a v).cycle = s.cycle := rfl

/-! ### emit -/

@[simp] theorem State.emit_regs (v : Byte) : (s.emit v).regs = s.regs := rfl
@[simp] theorem State.emit_pc (v : Byte) : (s.emit v).pc = s.pc := rfl
@[simp] theorem State.emit_fl (v : Byte) : (s.emit v).fl = s.fl := rfl
@[simp] theorem State.emit_running (v : Byte) : (s.emit v).running = s.running := rfl
@[simp] theorem State.emit_fault (v : Byte) : (s.emit v).fault = s.fault := rfl
@[simp] theorem State.emit_out (v : Byte) : (s.emit v).out = s.out ++ [v] := rfl
@[simp] theorem State.emit_mem (v : Byte) : (s.emit v).mem = s.mem := rfl
@[simp] theorem State.emit_cycle (v : Byte) : (s.emit v).cycle = s.cycle := rfl

/-! ### setFl -/

@[simp] theorem State.setFl_regs (f : Flag) : (s.setFl f).regs = s.regs := rfl
@[simp] theorem State.setFl_pc (f : Flag) : (s.setFl f).pc = s.pc := rfl
@[simp] theorem State.setFl_fl (f : Flag) : (s.setFl f).fl = f := rfl
@[simp] theorem State.setFl_running (f : Flag) : (s.setFl f).running = s.running := rfl
@[simp] theorem State.setFl_fault (f : Flag) : (s.setFl f).fault = s.fault := rfl
@[simp] theorem State.setFl_out (f : Flag) : (s.setFl f).out = s.out := rfl
@[simp] theorem State.setFl_mem (f : Flag) : (s.setFl f).mem = s.mem := rfl
@[simp] theorem State.setFl_cycle (f : Flag) : (s.setFl f).cycle = s.cycle := rfl

/-! ### halt -/

@[simp] theorem State.halt_regs : (s.halt).regs = s.regs := rfl
@[simp] theorem State.halt_pc : (s.halt).pc = s.pc := rfl
@[simp] theorem State.halt_fl : (s.halt).fl = s.fl := rfl
@[simp] theorem State.halt_running : (s.halt).running = false := rfl
@[simp] theorem State.halt_fault : (s.halt).fault = s.fault := rfl
@[simp] theorem State.halt_out : (s.halt).out = s.out := rfl
@[simp] theorem State.halt_mem : (s.halt).mem = s.mem := rfl
@[simp] theorem State.halt_cycle : (s.halt).cycle = s.cycle := rfl

/-! ### beginCycle -/

@[simp] theorem State.beginCycle_regs : (s.beginCycle).regs = s.regs := rfl
@[simp] theorem State.beginCycle_pc : (s.beginCycle).pc = s.pc := rfl
@[simp] theorem State.beginCycle_fl : (s.beginCycle).fl = s.fl := rfl
@[simp] theorem State.beginCycle_running : (s.beginCycle).running = s.running := rfl
@[simp] theorem State.beginCycle_fault : (s.beginCycle).fault = s.fault := rfl
@[simp] theorem State.beginCycle_out : (s.beginCycle).out = s.out := rfl
@[simp] theorem State.beginCycle_mem : (s.beginCycle).mem = s.mem := rfl
@[simp] theorem State.beginCycle_cycle : (s.beginCycle).cycle = some s.fetch := rfl

/-! ### endCycle -/

@[simp] theorem State.endCycle_regs : (s.endCycle).regs = s.regs := rfl
@[simp] theorem State.endCycle_pc : (s.endCycle).pc = s.pc := rfl
@[simp] theorem State.endCycle_fl : (s.endCycle).fl = s.fl := rfl
@[simp] theorem State.endCycle_running : (s.endCycle).running = s.running := rfl
@[simp] theorem State.endCycle_fault : (s.endCycle).fault = s.fault := rfl
@[simp] theorem State.endCycle_out : (s.endCycle).out = s.out := rfl
@[simp] theorem State.endCycle_mem : (s.endCycle).mem = s.mem := rfl
@[simp] theorem State.endCycle_cycle : (s.endCycle).cycle = none := rfl

/-! ### updatePc -/

@[simp] theorem State.updatePc_regs (n : Nat) (ret : Option Byte) : (s.updatePc n ret).regs = s.regs := rfl
@[simp] theorem State.updatePc_fl (n : Nat) (ret : Option Byte) : (s.updatePc n ret).fl = s.fl := rfl
@[simp] theorem State.updatePc_running (n : Nat) (ret : Option Byte) : (s.updatePc n ret).running = s.running := rfl
@[simp] theorem State.updatePc_fault (n : Nat) (ret : Option Byte) : (s.updatePc n ret).fault = s.fault := rfl
@[simp] theorem State.updatePc_out (n : Nat) (ret : Option Byte) : (s.updatePc n ret).out = s.out := rfl
@[simp] theorem State.updatePc_mem (n : Nat) (ret : Option Byte) : (s.updatePc n ret).mem = s.mem := rfl
@[simp] theorem State.updatePc_cycle (n : Nat) (ret : Option Byte) : (s.updatePc n ret).cycle = s.cycle := rfl
@[simp] theorem State.updatePc_pc_none (n : Nat) : (s.updatePc n none).pc = u8 (s.pc.toNat + 1 + n) := rfl
@[simp] theorem State.updatePc_pc_some (n : Nat) (t : Byte) : (s.updatePc n (some t)).pc = t := rfl

/-! ### raiseFault -/

@[simp] theorem State.raiseFault_regs (c : Cause) : (s.raiseFault c).regs = s.regs := rfl
@[simp] theorem State.raiseFault_pc (c : Cause) : (s.raiseFault c).pc = s.pc := rfl
@[simp] theorem State.raiseFault_fl (c : Cause) : (s.raiseFault c).fl = s.fl := rfl
@[simp] theorem State.raiseFault_running (c : Cause) : (s.raiseFault c).running = false := rfl
@[simp] theorem State.raiseFault_fault (c : Cause) : (s.raiseFault c).fault = some { cause := c, pc := s.pc, op := s.currentOp } := rfl
@[simp] theorem State.raiseFault_out (c : Cause) : (s.raiseFault c).out = s.out := rfl
@[simp] theorem State.raiseFault_mem (c : Cause) : (s.raiseFault c).mem = s.mem := rfl
@[simp] theorem State.raiseFault_cycle (c : Cause) : (s.raiseFault c).cycle = s.cycle := rfl

/-! ### decSp -/

@[simp] theorem State.decSp_regs : (s.decSp).regs = s.regs.set Reg.sp (s.sp - 1#8) := rfl
@[simp] theorem State.decSp_pc : (s.decSp).pc = s.pc := rfl
@[simp] theorem State.decSp_fl : (s.decSp).fl = s.fl := rfl
@[simp] theorem State.decSp_running : (s.decSp).running = s.running := rfl
@[simp] theorem State.decSp_fault : (s.decSp).fault = s.fault := rfl
@[simp] theorem State.decSp_out : (s.decSp).out = s.out := rfl
@[simp] theorem State.decSp_mem : (s.decSp).mem = s.mem := rfl
@[simp] theorem State.decSp_cycle : (s.decSp).cycle = s.cycle := rfl

/-! ### incSp -/

@[simp] theorem State.incSp_regs : (s.incSp).regs = s.regs.set Reg.sp (s.sp + 1#8) := rfl
@[simp] theorem State.incSp_pc : (s.incSp).pc = s.pc := rfl
@[simp] theorem State.incSp_fl : (s.incSp).fl = s.fl := rfl
@[simp] theorem State.incSp_running : (s.incSp).running = s.running := rfl
@[simp] theorem State.incSp_fault : (s.incSp).fault = s.fault := rfl
@[simp] theorem State.incSp_out : (s.incSp).out = s.out := rfl
@[simp] theorem State.incSp_mem : (s.incSp).mem = s.mem := rfl
@[simp] theorem State.incSp_cycle : (s.incSp).cycle = s.cycle := rfl

/-! ### pushByte -/

@[simp] theorem State.pushByte_regs (v : State → Byte) : (s.pushByte v).regs = s.regs.set Reg.sp (s.sp - 1#8) := rfl
@[simp] theorem State.pushByte_pc (v : State → Byte) : (s.pushByte v).pc = s.pc := rfl
@[simp] theorem State.pushByte_fl (v : State → Byte) : (s.pushByte v).fl = s.fl := rfl
@[simp] theorem State.pushByte_running (v : State → Byte) : (s.pushByte v).running = s.running := rfl
@[simp] theorem State.pushByte_fault (v : State → Byte) : (s.pushByte v).fault = s.fault := rfl
@[simp] theorem State.pushByte_out (v : State → Byte) : (s.pushByte v).out = s.out := rfl
@[simp] theorem State.pushByte_mem (v : State → Byte) : (s.pushByte v).mem = s.mem.write s.decSp.sp.toNat (v s.decSp) := rfl
@[simp] theorem State.pushByte_cycle (v : State → Byte) : (s.pushByte v).cycle = s.cycle := rfl

/-! ### What an update leaves of a register and of a cell -/

@[simp] theorem State.setReg_memRead (r : Reg) (v : Byte) (addr : Byte) : (s.setReg r v).memRead addr = s.memRead addr := rfl
@[simp] theorem State.memWrite_reg (a v : Byte) (q : Reg) : (s.memWrite a v).reg q = s.reg q := rfl
@[simp] theorem State.memWrite_sp (a v : Byte) : (s.memWrite a v).sp = s.sp := rfl
@[simp] theorem State.emit_reg (v : Byte) (q : Reg) : (s.emit v).reg q = s.reg q := rfl
@[simp] theorem State.emit_sp (v : Byte) : (s.emit v).sp = s.sp := rfl
@[simp] theorem State.emit_memRead (v : Byte) (addr : Byte) : (s.emit v).memRead addr = s.memRead addr := rfl
@[simp] theorem State.setFl_reg (f : Flag) (q : Reg) : (s.setFl f).reg q = s.reg q := rfl
@[simp] theorem State.setFl_sp (f : Flag) : (s.setFl f).sp = s.sp := rfl
@[simp] theorem State.setFl_memRead (f : Flag) (addr : Byte) : (s.setFl f).memRead addr = s.memRead addr := rfl
@[simp] theorem State.halt_reg (q : Reg) : (s.halt).reg q = s.reg q := rfl
@[simp] theorem State.halt_sp : (s.halt).sp = s.sp := rfl
@[simp] theorem State.halt_memRead (addr : Byte) : (s.halt).memRead addr = s.memRead addr := rfl
@[simp] theorem State.beginCycle_reg (q : Reg) : (s.beginCycle).reg q = s.reg q := rfl
@[simp] theorem State.beginCycle_sp : (s.beginCycle).sp = s.sp := rfl
@[simp] theorem State.beginCycle_memRead (addr : Byte) : (s.beginCycle).memRead addr = s.memRead addr := rfl
@[simp] theorem State.endCycle_reg (q : Reg) : (s.endCycle).reg q = s.reg q := rfl
@[simp] theorem State.endCycle_sp : (s.endCycle).sp = s.sp := rfl
@[simp] theorem State.endCycle_memRead (addr : Byte) : (s.endCycle).memRead addr = s.memRead addr := rfl
@[simp] theorem State.updatePc_reg (n : Nat) (ret : Option Byte) (q : Reg) : (s.updatePc n ret).reg q = s.reg q := rfl
@[simp] theorem State.updatePc_sp (n : Nat) (ret : Option Byte) : (s.updatePc n ret).sp = s.sp := rfl
@[simp] theorem State.updatePc_memRead (n : Nat) (ret : Option Byte) (addr : Byte) : (s.updatePc n ret).memRead addr = s.memRead addr := rfl
@[simp] theorem State.raiseFault_reg (c : Cause) (q : Reg) : (s.raiseFault c).reg q = s.reg q := rfl
@[simp] theorem State.raiseFault_sp (c : Cause) : (s.raiseFault c).sp = s.sp := rfl
@[simp] theorem State.raiseFault_memRead (c : Cause) (addr : Byte) : (s.raiseFault c).memRead addr = s.memRead addr := rfl
@[simp] theorem State.decSp_memRead (addr : Byte) : (s.decSp).memRead addr = s.memRead addr := rfl
@[simp] theorem State.incSp_memRead (addr : Byte) : (s.incSp).memRead addr = s.memRead addr := rfl

/-! ### Reading back a register -/

@[simp] theorem Regs.get_set_same (g : Regs) (r : Reg) (v : Byte) : (g.set r v).get r = v := by
  cases r <;> rfl

theorem Regs.get_set_other (g : Regs) {r q : Reg} (h : q ≠ r) (v : Byte) : (g.set r v).get q = g.get q := by
  cases r <;> cases q <;> first | rfl | exact absurd rfl h

@[simp] theorem State.setReg_reg_same (r : Reg) (v : Byte) : (s.setReg r v).reg r = v :=
  Regs.get_set_same s.regs r v

theorem State.setReg_reg_other {r q : Reg} (h : q ≠ r) (v : Byte) : (s.setReg r v).reg q = s.reg q :=
  Regs.get_set_other s.regs h v

/-- SP is register 6 (R11). -/
theorem State.sp_eq : s.sp = s.reg .r6 := rfl

@[simp] theorem State.decSp_sp : s.decSp.sp = s.sp - 1#8 := s.setReg_reg_same Reg.sp _

@[simp] theorem State.incSp_sp : s.incSp.sp = s.sp + 1#8 := s.setReg_reg_same Reg.sp _

theorem State.decSp_reg_other {q : Reg} (h : q ≠ .r6) : s.decSp.reg q = s.reg q := s.setReg_reg_other h _

theorem State.incSp_reg_other {q : Reg} (h : q ≠ .r6) : s.incSp.reg q = s.reg q := s.setReg_reg_other h _

/-- A push leaves SP one lower (R81). -/
@[simp] theorem State.pushByte_sp (v : State → Byte) : (s.pushByte v).sp = s.sp - 1#8 := s.decSp_sp

theorem State.pushByte_reg_other (v : State → Byte) {q : Reg} (h : q ≠ .r6) : (s.pushByte v).reg q = s.reg q :=
  s.decSp_reg_other h

end Sys2Proof.Machine
end

