-- ==== Sys2Proof/Laws/Memory.lean ====
section
/-! SUPPORT. The laws of memory: a read after a write gives the byte written at its address and what was there at every
other one, whatever the list; and every memory operation keeps the canonical form. -/

namespace Sys2Proof.Machine

/-! ## Read after write -/

theorem Memory.read_erase (m : Memory) (a b : Nat) :
    (m.erase a).read b = if b = a then Memory.unlisted else m.read b := by
  induction m with
  | nil => simp [Memory.erase, Memory.read]
  | cons c rest ih =>
    obtain ⟨k, w⟩ := c
    simp only [Memory.erase, List.filter_cons] at ih ⊢
    by_cases hk : k = a
    · by_cases hb : b = a
      · simp [hk, hb] at ih ⊢; exact ih
      · simp [hk, hb, Memory.read, Ne.symm hb] at ih ⊢; exact ih
    · by_cases hb : k = b
      · subst hb; simp [hk, Memory.read]
      · simp [hk, hb, Memory.read] at ih ⊢; exact ih

theorem Memory.not_mem_erase (m : Memory) (a : Nat) : ∀ c ∈ m.erase a, c.1 ≠ a := by
  intro c hc
  simpa using (List.mem_filter.mp hc).2

theorem Memory.read_insert (m : Memory) (a b : Nat) (v : Byte) (hm : ∀ c ∈ m, c.1 ≠ a) :
    (m.insert a v).read b = if b = a then v else m.read b := by
  induction m with
  | nil => by_cases hb : b = a <;> simp [Memory.insert, Memory.read, hb, eq_comm (a := a)]
  | cons c rest ih =>
    obtain ⟨k, w⟩ := c
    have hk : k ≠ a := hm (k, w) (by simp)
    have ih := ih fun c hc => hm c (by simp [hc])
    by_cases ha : a < k
    · by_cases hb : b = a <;> simp [Memory.insert, Memory.read, ha, hb, eq_comm (a := a)]
    · by_cases hb : k = b
      · subst hb; simp [Memory.insert, Memory.read, ha, hk]
      · simp [Memory.insert, Memory.read, ha, hb, ih]

/-- A byte written is the byte read at its address, and no other cell changes (R34). -/
theorem Memory.read_write (m : Memory) (a b : Nat) (v : Byte) :
    (m.write a v).read b = if b = a then v else m.read b := by
  unfold Memory.write
  split
  · next h => rw [Memory.read_erase, h]
  · rw [Memory.read_insert _ _ _ _ (Memory.not_mem_erase m a), Memory.read_erase]
    split <;> rfl

theorem State.memWrite_memRead (s : State) (a v b : Byte) :
    (s.memWrite a v).memRead b = if b = a then v else s.memRead b := by
  simp only [State.memRead, State.memWrite, Memory.read_write, BitVec.toNat_inj]

@[simp] theorem State.memWrite_memRead_same (s : State) (a v : Byte) : (s.memWrite a v).memRead a = v := by
  simp [State.memWrite_memRead]

theorem State.memWrite_memRead_other (s : State) {a b : Byte} (h : b ≠ a) (v : Byte) :
    (s.memWrite a v).memRead b = s.memRead b := by
  simp [State.memWrite_memRead, h]

/-- A push writes the one cell below the old stack top (R81). -/
theorem State.pushByte_memRead (s : State) (v : State → Byte) (b : Byte) :
    (s.pushByte v).memRead b = if b = s.sp - 1#8 then v s.decSp else s.memRead b := by
  simp only [State.pushByte, State.memWrite_memRead, State.decSp_sp, State.decSp_memRead]

/-- Bytes placed from `a` upward are read back in order; cells outside them keep what they held (R109). -/
theorem Memory.read_place (image : List Byte) (m : Memory) (a b : Nat) :
    (m.place a image).read b =
      if a ≤ b ∧ b < a + image.length then image.getD (b - a) 0#8 else m.read b := by
  induction image generalizing m a with
  | nil => have : ¬ (a ≤ b ∧ b < a) := by omega
           simp [Memory.place, this]
  | cons v rest ih =>
    rw [Memory.place, ih, Memory.read_write, List.length_cons]
    by_cases h : b = a
    · subst h
      have h1 : ¬ (b + 1 ≤ b ∧ b < b + 1 + rest.length) := by omega
      have h2 : b ≤ b ∧ b < b + (rest.length + 1) := by omega
      simp [h2]
    · by_cases h1 : a + 1 ≤ b ∧ b < a + 1 + rest.length
      · have h2 : a ≤ b ∧ b < a + (rest.length + 1) := by omega
        obtain ⟨d, hd⟩ : ∃ d, b - a = d + 1 := ⟨b - a - 1, by omega⟩
        have hd' : b - (a + 1) = d := by omega
        simp only [if_pos h1, if_pos h2, hd, hd', List.getD_cons_succ]
      · have h2 : ¬ (a ≤ b ∧ b < a + (rest.length + 1)) := by omega
        simp only [if_neg h1, if_neg h2, if_neg h]

/-! ## The canonical form -/

theorem Memory.erase_wf {m : Memory} (h : m.wf) (a : Nat) : (m.erase a).wf :=
  ⟨h.1.filter _, fun c hc => h.2 c (List.mem_filter.mp hc).1⟩

theorem Memory.mem_insert {m : Memory} {a : Nat} {v : Byte} {c : Host.Cell} :
    c ∈ m.insert a v ↔ c = (a, v) ∨ c ∈ m := by
  induction m with
  | nil => simp [Memory.insert]
  | cons d rest ih =>
    obtain ⟨k, w⟩ := d
    unfold Memory.insert
    split
    · simp
    · simp only [List.mem_cons, ih]; tauto

theorem Memory.insert_wf {m : Memory} (h : m.wf) {a : Nat} {v : Byte} (ha : a < Config.memSize)
    (hv : v ≠ Memory.unlisted) (hm : ∀ c ∈ m, c.1 ≠ a) : (m.insert a v).wf := by
  refine ⟨?_, fun c hc => ?_⟩
  · induction m with
    | nil => simp [Memory.insert]
    | cons d rest ih =>
      obtain ⟨k, w⟩ := d
      have hk : k ≠ a := hm (k, w) (by simp)
      obtain ⟨h1, h2⟩ := List.pairwise_cons.mp h.1
      have hrest : Memory.wf rest := ⟨h2, fun c hc => h.2 c (by simp [hc])⟩
      unfold Memory.insert
      split
      · next hlt =>
        refine List.pairwise_cons.mpr ⟨fun c hc => ?_, h.1⟩
        rcases List.mem_cons.mp hc with rfl | hc
        · exact hlt
        · exact Nat.lt_trans hlt (h1 c hc)
      · next hnlt =>
        refine List.pairwise_cons.mpr ⟨fun c hc => ?_, ih hrest fun c hc => hm c (by simp [hc])⟩
        rcases Memory.mem_insert.mp hc with rfl | hc
        · show k < a; omega
        · exact h1 c hc
  · rcases Memory.mem_insert.mp hc with rfl | hc
    · exact ⟨ha, hv⟩
    · exact h.2 c hc

/-- Writing a cell keeps the canonical form. -/
theorem Memory.write_wf {m : Memory} (h : m.wf) {a : Nat} (ha : a < Config.memSize) (v : Byte) :
    (m.write a v).wf := by
  unfold Memory.write
  split
  · exact Memory.erase_wf h a
  · next hv => exact Memory.insert_wf (Memory.erase_wf h a) ha hv (Memory.not_mem_erase m a)

/-- Placing an image that fits keeps the canonical form. -/
theorem Memory.place_wf (image : List Byte) {m : Memory} (h : m.wf) {a : Nat}
    (ha : a + image.length ≤ Config.memSize) : (m.place a image).wf := by
  induction image generalizing m a with
  | nil => exact h
  | cons v rest ih =>
    rw [List.length_cons] at ha
    exact ih (Memory.write_wf h (by omega) v) (by omega)

theorem State.memWrite_wf {s : State} (h : s.mem.wf) (a v : Byte) : (s.memWrite a v).mem.wf :=
  Memory.write_wf h a.isLt v

theorem State.pushByte_wf {s : State} (h : s.mem.wf) (v : State → Byte) : (s.pushByte v).mem.wf :=
  Memory.write_wf h (BitVec.isLt _) _

/-- The reset memory is in the canonical form. -/
theorem reset_mem_wf : State.reset.mem.wf := by decide

/-! ## Equal contents, equal data -/

theorem Memory.read_of_mem {m : Memory} (h : m.wf) {c : Host.Cell} (hc : c ∈ m) : m.read c.1 = c.2 := by
  induction m with
  | nil => simp at hc
  | cons d rest ih =>
    obtain ⟨h1, h2⟩ := List.pairwise_cons.mp h.1
    rcases List.mem_cons.mp hc with rfl | hc
    · simp [Memory.read]
    · have hd : d.1 ≠ c.1 := Nat.ne_of_lt (h1 c hc)
      have := ih ⟨h2, fun c hc => h.2 c (by simp [hc])⟩ hc
      obtain ⟨k, w⟩ := d
      simpa [Memory.read, hd] using this

theorem Memory.mem_of_read {m : Memory} {a : Nat} (h : m.read a ≠ Memory.unlisted) : (a, m.read a) ∈ m := by
  induction m with
  | nil => simp [Memory.read] at h
  | cons d rest ih =>
    obtain ⟨k, w⟩ := d
    by_cases hk : k = a
    · simp [Memory.read, hk]
    · simp only [Memory.read, hk, if_false] at h ⊢
      exact List.mem_cons_of_mem _ (ih h)

end Sys2Proof.Machine
end

