-- ==== Sys2Proof/Laws/Ops.lean ====
section
/-! SUPPORT. One lemma per shared operation that says everything it can do, for proofs to cite instead of unfolding it:
register operands, the register check, the PC update, the ALU request, the end of a cycle, the step. -/

namespace Sys2Proof.Machine

/-! ## Register operands (R47) -/

@[simp] theorem Reg.ofByte_index (r : Reg) : Reg.ofByte r.index = some r := by
  cases r <;> rfl

/-- A byte of 0 to 7 names the register with that index, and any other byte names none (R47). -/
theorem Reg.ofByte_eq_none {b : Byte} : Reg.ofByte b = none ↔ 7 < b.toNat := by
  revert b; decide

theorem Reg.index_of_ofByte {b : Byte} {r : Reg} (h : Reg.ofByte b = some r) : r.index = b := by
  revert b r; decide

theorem Reg.index_toNat_le (r : Reg) : r.index.toNat ≤ 7 := by
  cases r <;> decide

theorem Reg.index_inj {r q : Reg} : r.index = q.index ↔ r = q := by
  cases r <;> cases q <;> decide

/-! ## The register check (R60) -/

@[simp] theorem withReg_index (r : Reg) (s : State) (f : Reg → Result) : withReg r.index s f = f r := by
  simp [withReg]

theorem withReg_range {p : Byte} (h : 7 < p.toNat) (s : State) (f : Reg → Result) :
    withReg p s f = .next (s.raiseFault .regIndexRange) := by
  simp [withReg, Reg.ofByte_eq_none.mpr h]

/-- The check either runs the handler with the register named, or raises REG_INDEX_RANGE. -/
theorem withReg_cases (p : Byte) (s : State) (f : Reg → Result) :
    (∃ r : Reg, p = r.index ∧ withReg p s f = f r) ∨
      (7 < p.toNat ∧ withReg p s f = .next (s.raiseFault .regIndexRange)) := by
  cases h : Reg.ofByte p with
  | none => exact .inr ⟨Reg.ofByte_eq_none.mp h, by simp [withReg, h]⟩
  | some r => exact .inl ⟨r, (Reg.index_of_ofByte h).symm, by simp [withReg, h]⟩

@[simp] theorem withRegs_index (rA rB : Reg) (s : State) (f : Reg → Reg → Result) :
    withRegs rA.index rB.index s f = f rA rB := by
  simp [withRegs]

theorem withRegs_range {pA pB : Byte} (h : 7 < pA.toNat ∨ 7 < pB.toNat) (s : State) (f : Reg → Reg → Result) :
    withRegs pA pB s f = .next (s.raiseFault .regIndexRange) := by
  unfold withRegs
  rcases withReg_cases pA s (fun rA => withReg pB s fun rB => f rA rB) with ⟨r, hr, e⟩ | ⟨-, e⟩
  · rw [e]
    have := r.index_toNat_le
    exact withReg_range (by rcases h with h | h <;> [(subst hr; omega); exact h]) s _
  · exact e

theorem withRegs_cases (pA pB : Byte) (s : State) (f : Reg → Reg → Result) :
    (∃ rA rB : Reg, pA = rA.index ∧ pB = rB.index ∧ withRegs pA pB s f = f rA rB) ∨
      ((7 < pA.toNat ∨ 7 < pB.toNat) ∧ withRegs pA pB s f = .next (s.raiseFault .regIndexRange)) := by
  rcases withReg_cases pA s (fun rA => withReg pB s fun rB => f rA rB) with ⟨rA, hA, e⟩ | ⟨hA, e⟩
  · rcases withReg_cases pB s (fun rB => f rA rB) with ⟨rB, hB, e'⟩ | ⟨hB, e'⟩
    · exact .inl ⟨rA, rB, hA, hB, by rw [withRegs, e, e']⟩
    · exact .inr ⟨.inr hB, by rw [withRegs, e, e']⟩
  · exact .inr ⟨.inl hA, by rw [withRegs, e]⟩

/-! ## The PC update (R62), the ALU request (R76, R80) -/

@[simp] theorem complete_eq (n : Nat) (ret : Option Byte) (s : State) :
    complete n ret s = .next (s.updatePc n ret) := rfl

/-- An ALU request writes the register named by A, or FL, or raises a fault and nothing else. -/
theorem execAluOp_cases (op : AluOp) (a b : Byte) (s : State) :
    (∃ rA rB v, a = Reg.index rA ∧ b = Reg.index rB ∧ alu op (s.reg rA) (s.reg rB) = some (.value v) ∧
      execAluOp op a b s = .next ((s.setReg rA v).updatePc 2 none)) ∨
    (∃ rA rB f, a = Reg.index rA ∧ b = Reg.index rB ∧ alu op (s.reg rA) (s.reg rB) = some (.flag f) ∧
      execAluOp op a b s = .next ((s.setFl f).updatePc 2 none)) ∨
    (∃ rA rB, a = Reg.index rA ∧ b = Reg.index rB ∧ alu op (s.reg rA) (s.reg rB) = none ∧
      execAluOp op a b s = .next (s.raiseFault .unsupportedAluOp)) ∨
    ((7 < a.toNat ∨ 7 < b.toNat) ∧ execAluOp op a b s = .next (s.raiseFault .regIndexRange)) := by
  rcases withRegs_cases a b s (fun rA rB => finishAlu rA (alu op (s.reg rA) (s.reg rB)) s) with
    ⟨rA, rB, hA, hB, e⟩ | h
  · cases hu : alu op (s.reg rA) (s.reg rB) with
    | none => exact .inr (.inr (.inl ⟨rA, rB, hA, hB, hu, by rw [execAluOp, e, hu]; rfl⟩))
    | some r =>
      cases r with
      | value v => exact .inl ⟨rA, rB, v, hA, hB, hu, by rw [execAluOp, e, hu]; rfl⟩
      | flag f => exact .inr (.inl ⟨rA, rB, f, hA, hB, hu, by rw [execAluOp, e, hu]; rfl⟩)
  · exact .inr (.inr (.inr h))

/-! ## The cycle and the step (R54, R64) -/

@[simp] theorem endResult_next (t : State) : endResult (.next t) = .next t.endCycle := rfl

theorem endResult_eq_next {r : Result} {t : State} (h : endResult r = .next t) :
    ∃ u, r = .next u ∧ t = u.endCycle := by
  cases r with
  | next u => exact ⟨u, rfl, by simpa [eq_comm] using h⟩
  | fault f => cases f
  | refused f => simp [endResult] at h

/-- Everything a step can do: nothing, when the core has stopped; the fault INVALID_OPCODE; or the decoded instruction
within a cycle. -/
theorem stepWith_cases {m : OpcodeMap} {s t : State} (h : stepWith m s = .next t) :
    (s.running = false ∧ t = s) ∨
    (s.running = true ∧ (∃ e, decodeWith m s.fetch.op s.fetch.a s.fetch.b = .error e) ∧
      t = (s.beginCycle.raiseFault .invalidOpcode).endCycle) ∨
    (s.running = true ∧ ∃ i u, decodeWith m s.fetch.op s.fetch.a s.fetch.b = .ok i ∧
      exec i s.beginCycle = .next u ∧ t = u.endCycle) := by
  unfold stepWith at h
  split at h
  · next hr =>
    unfold runCycle at h
    split at h
    · next e he => exact .inr (.inl ⟨hr, ⟨e, he⟩, by simpa [eq_comm] using h⟩)
    · next i hi =>
      obtain ⟨u, hu, ht⟩ := endResult_eq_next h
      exact .inr (.inr ⟨hr, i, u, hi, hu, ht⟩)
  · next hr => exact .inl ⟨by simpa using hr, by simpa [eq_comm] using h⟩

end Sys2Proof.Machine
end

