-- ==== Sys2Proof/Laws/Exec.lean ====
section
/-! SUPPORT. What each instruction does with operands that name registers, in terms of the named operations: the one
place where the meanings are unfolded; and the one inversion lemma of `exec` on a register out of range. -/

namespace Sys2Proof.Machine

variable (s : State)

@[simp] theorem exec_hlt : exec .hlt s = .next (s.halt.updatePc 0 none) := rfl

@[simp] theorem exec_ldi_index (rA : Reg) (imm : Byte) :
    exec (.ldi rA.index imm) s = .next ((s.setReg rA imm).updatePc 2 none) := by
  simp [exec, execLdi]

@[simp] theorem exec_prn_index (rA : Reg) :
    exec (.prn rA.index) s = .next ((s.emit (s.reg rA)).updatePc 1 none) := by
  simp [exec, execPrn]

@[simp] theorem exec_add_index (rA rB : Reg) :
    exec (.add rA.index rB.index) s = .next ((s.setReg rA (aluAdd (s.reg rA) (s.reg rB))).updatePc 2 none) := by
  simp [exec, execAdd, execAluOp, finishAlu, alu]

@[simp] theorem exec_mul_index (rA rB : Reg) :
    exec (.mul rA.index rB.index) s = .next ((s.setReg rA (aluMul (s.reg rA) (s.reg rB))).updatePc 2 none) := by
  simp [exec, execMul, execAluOp, finishAlu, alu]

@[simp] theorem exec_cmp_index (rA rB : Reg) :
    exec (.cmp rA.index rB.index) s = .next ((s.setFl (aluCompare (s.reg rA) (s.reg rB))).updatePc 2 none) := by
  simp [exec, execCmp, execAluOp, finishAlu, alu]

/-- A comparison always leaves one of LESS, GREATER and EQUAL (R79). -/
theorem aluCompare_ne_none (x y : Byte) : aluCompare x y ≠ .none := by
  unfold aluCompare
  split <;> [simp; (split <;> simp)]

@[simp] theorem exec_push_index (rA : Reg) :
    exec (.push rA.index) s = .next ((s.pushByte fun t => t.reg rA).updatePc 1 none) := by
  simp [exec, execPush]

@[simp] theorem exec_pop_index (rA : Reg) :
    exec (.pop rA.index) s = .next ((s.setReg rA (s.memRead s.sp)).incSp.updatePc 1 none) := by
  simp [exec, execPop]

@[simp] theorem exec_call_index (rA : Reg) :
    exec (.call rA.index) s =
      .next ((s.pushByte fun t => u8 (t.pc.toNat + 2)).updatePc 1 (some (s.decSp.reg rA))) := by
  simp [exec, execCall]

@[simp] theorem exec_ret : exec .ret s = .next (s.incSp.updatePc 0 (some (s.memRead s.sp))) := rfl

@[simp] theorem exec_jmp_index (rA : Reg) :
    exec (.jmp rA.index) s = .next (s.updatePc 1 (some (s.reg rA))) := by
  simp [exec, execJmp]

@[simp] theorem exec_jeq_index (rA : Reg) :
    exec (.jeq rA.index) s = .next (s.updatePc 1 (if s.fl.isEqual then some (s.reg rA) else none)) := by
  simp [exec, execJeq]

@[simp] theorem exec_jne_index (rA : Reg) :
    exec (.jne rA.index) s = .next (s.updatePc 1 (if s.fl.isEqual then none else some (s.reg rA))) := by
  simp [exec, execJne]

@[simp] theorem exec_st_index (rA rB : Reg) :
    exec (.st rA.index rB.index) s = .next ((s.memWrite (s.reg rA) (s.reg rB)).updatePc 2 none) := by
  simp [exec, execSt]

/-- A byte of at most 7 is the index of a register (R47). -/
theorem Reg.exists_index {p : Byte} (h : p.toNat ≤ 7) : ∃ r : Reg, p = r.index := by
  cases hr : Reg.ofByte p with
  | none => have := Reg.ofByte_eq_none.mp hr; omega
  | some r => exact ⟨r, (Reg.index_of_ofByte hr).symm⟩

/-- An instruction with a register operand byte of 8 or more raises REG_INDEX_RANGE and does nothing else (R60). -/
theorem exec_ill_formed {i : Instr} (h : i.wellFormed = false) :
    exec i s = .next (s.raiseFault .regIndexRange) := by
  cases i <;>
    simp only [Instr.wellFormed, Instr.regOperands, List.all_nil, List.all_cons, Bool.and_true, Bool.and_eq_false_iff,
      decide_eq_false_iff_not, Nat.not_le, reduceCtorEq] at h <;>
    first
    | exact withReg_range h s _
    | exact withRegs_range h s _

/-- Everything an instruction can be: one with a register operand out of range, which faults; or one of the fourteen with
operands that name registers, for which the lemmas above say what it does. -/
theorem exec_cases (i : Instr) :
    (i.wellFormed = false ∧ exec i s = .next (s.raiseFault .regIndexRange)) ∨
    (i = .hlt ∨ i = .ret) ∨
    (∃ rA : Reg, (∃ imm, i = .ldi rA.index imm) ∨ i = .prn rA.index ∨ i = .push rA.index ∨ i = .pop rA.index ∨
      i = .call rA.index ∨ i = .jmp rA.index ∨ i = .jeq rA.index ∨ i = .jne rA.index) ∨
    (∃ rA rB : Reg, i = .add rA.index rB.index ∨ i = .mul rA.index rB.index ∨ i = .cmp rA.index rB.index ∨
      i = .st rA.index rB.index) := by
  cases hw : i.wellFormed with
  | false => exact .inl ⟨rfl, exec_ill_formed s hw⟩
  | true =>
    right
    cases i <;>
      simp only [Instr.wellFormed, Instr.regOperands, List.all_nil, List.all_cons, Bool.and_true, Bool.and_eq_true,
        decide_eq_true_eq] at hw
    case hlt => exact .inl (.inl rfl)
    case ret => exact .inl (.inr rfl)
    case add | mul | cmp | st =>
      obtain ⟨rA, rfl⟩ := Reg.exists_index hw.1
      obtain ⟨rB, rfl⟩ := Reg.exists_index hw.2
      exact .inr (.inr ⟨rA, rB, by simp⟩)
    all_goals
      obtain ⟨rA, rfl⟩ := Reg.exists_index hw
      exact .inr (.inl ⟨rA, by simp⟩)

/-- The PC update without a target, as a sum of bytes: `k` is the instruction's length 1 + n (R45, R62). -/
theorem State.updatePc_none {n : Nat} {k : Byte} (h : k.toNat = n + 1) :
    s.updatePc n none = { s with pc := s.pc + k } := by
  have : u8 (s.pc.toNat + 1 + n) = s.pc + k := by
    apply BitVec.eq_of_toNat_eq
    simp only [u8, BitVec.toNat_ofNat, BitVec.toNat_add]
    omega
  simp [State.updatePc, this]

/-- Within a cycle, fault entry records the latched opcode byte (R21, R97). -/
theorem State.raiseFault_of_cycle {l : Latch} (h : s.cycle = some l) (c : Cause) :
    s.raiseFault c = { s with fault := some { cause := c, pc := s.pc, op := l.op }, running := false } := by
  simp [State.raiseFault, State.currentOp, h]

end Sys2Proof.Machine
end

