-- ==== Sys2Proof/Laws/PerInstr.lean ====
section
/-! SUPPORT. Facts about every instruction as syntax, one lemma per constructor. The family EncodedShape: an encoding is
the opcode byte and then as many operand bytes as the format has (R45, R46), at most two, and the register operands that
are checked are the first of them (R60). -/

namespace Sys2Proof.Laws.EncodedShape

/-- The shape of an instruction's encoding under any map. -/
def Statement (i : Instr) : Prop :=
  ∀ m : OpcodeMap,
    (encodeWith m i).head? = some (i.opcode m) ∧ (encodeWith m i).length = 1 + i.operandCount ∧
      i.operandCount ≤ 2 ∧ i.regOperands <+: i.operandBytes

theorem hlt : Statement .hlt := fun _ => ⟨rfl, rfl, by decide, ⟨[], rfl⟩⟩
theorem ldi (a b : Byte) : Statement (.ldi a b) := fun _ => ⟨rfl, rfl, by simp [Instr.operandCount], ⟨[b], rfl⟩⟩
theorem prn (a : Byte) : Statement (.prn a) := fun _ => ⟨rfl, rfl, by simp [Instr.operandCount], ⟨[], rfl⟩⟩
theorem add (a b : Byte) : Statement (.add a b) := fun _ => ⟨rfl, rfl, by simp [Instr.operandCount], ⟨[], rfl⟩⟩
theorem mul (a b : Byte) : Statement (.mul a b) := fun _ => ⟨rfl, rfl, by simp [Instr.operandCount], ⟨[], rfl⟩⟩
theorem push (a : Byte) : Statement (.push a) := fun _ => ⟨rfl, rfl, by simp [Instr.operandCount], ⟨[], rfl⟩⟩
theorem pop (a : Byte) : Statement (.pop a) := fun _ => ⟨rfl, rfl, by simp [Instr.operandCount], ⟨[], rfl⟩⟩
theorem call (a : Byte) : Statement (.call a) := fun _ => ⟨rfl, rfl, by simp [Instr.operandCount], ⟨[], rfl⟩⟩
theorem ret : Statement .ret := fun _ => ⟨rfl, rfl, by decide, ⟨[], rfl⟩⟩
theorem jmp (a : Byte) : Statement (.jmp a) := fun _ => ⟨rfl, rfl, by simp [Instr.operandCount], ⟨[], rfl⟩⟩
theorem cmp (a b : Byte) : Statement (.cmp a b) := fun _ => ⟨rfl, rfl, by simp [Instr.operandCount], ⟨[], rfl⟩⟩
theorem jeq (a : Byte) : Statement (.jeq a) := fun _ => ⟨rfl, rfl, by simp [Instr.operandCount], ⟨[], rfl⟩⟩
theorem jne (a : Byte) : Statement (.jne a) := fun _ => ⟨rfl, rfl, by simp [Instr.operandCount], ⟨[], rfl⟩⟩
theorem st (a b : Byte) : Statement (.st a b) := fun _ => ⟨rfl, rfl, by simp [Instr.operandCount], ⟨[], rfl⟩⟩

end Sys2Proof.Laws.EncodedShape
end

