-- ==== Sys2Proof/Laws/Run.lean ====
section
/-! SUPPORT. Runs of several steps: what one more step does, and the one induction over a run. -/

namespace Sys2Proof.Machine

/-- One more step of any machine, by the outcome of its first step. -/
theorem coreRun_succ (M : Host.Core) (n : Nat) (s : M.State) :
    (∀ u, M.step s = .next u → M.run (n + 1) s = M.run n u) ∧
    (∀ r, M.step s = .refused r → M.run (n + 1) s = .refused r) := by
  refine ⟨fun u h => ?_, fun r h => ?_⟩ <;> rw [Host.Core.run, h]

theorem run_succ_of_next {s u : State} (h : step s = .next u) (n : Nat) :
    Host.Core.run core (n + 1) s = Host.Core.run core n u :=
  (coreRun_succ core n s).1 u h

theorem run_succ_eq_next {s t : State} {n : Nat} (h : Host.Core.run core (n + 1) s = .next t) :
    ∃ u, step s = .next u ∧ Host.Core.run core n u = .next t := by
  cases hs : step s with
  | next u => exact ⟨u, rfl, run_succ_of_next hs n ▸ h⟩
  | fault r => cases r
  | refused r => cases ((coreRun_succ core n s).2 r hs).symm.trans h

/-- What every step keeps, every run keeps. -/
theorem run_keeps {P : State → Prop} (hP : ∀ s t, P s → step s = .next t → P t) {s t : State} {n : Nat}
    (hs : P s) (h : Host.Core.run core n s = .next t) : P t := by
  induction n generalizing s with
  | zero => cases h; exact hs
  | succ n ih =>
    obtain ⟨u, hu, hn⟩ := run_succ_eq_next h
    exact ih (hP s u hs hu) hn

end Sys2Proof.Machine
end

