-- ==== Sys2Proof/Tests/Slice0.lean ====
section
/-! SUPPORT. The model's own tests. Expected results come from the spec: the encodings of 30_encoding.md R41, R46, R53 and
spec/opcode_table.json, and the vectors W and V of 95_test_vectors.md, one step each. Then, for every statement of
Certificates/Slice0/Obligations.lean that has hypotheses, a named witness that meets them. -/

namespace Sys2Proof.Tests

open Sys2Proof.Machine

/-! ## Helpers -/

/-- The reset state with other registers, and with bytes placed from address `a` upward. -/
def setup (regs : Regs) (a : Nat) (bytes : List Byte) : State :=
  { State.reset with regs := regs, mem := State.reset.mem.place a bytes }

def regs0 : Regs := State.reset.regs

/-- The state one step later, if there is one. -/
def after (s : State) : Option State :=
  match step s with
  | .next t => some t
  | .fault _ => none
  | .refused _ => none

/-! ## Well-formed instructions (R47, R60): an ill-formed term for each check -/

theorem test_wf_ldi_A : (Instr.ldi 8#8 0#8).wellFormed = false ∧ (Instr.ldi 7#8 255#8).wellFormed = true := by decide
theorem test_wf_prn_A : (Instr.prn 8#8).wellFormed = false := by decide
theorem test_wf_add_AB : (Instr.add 8#8 0#8).wellFormed = false ∧ (Instr.add 0#8 8#8).wellFormed = false := by decide
theorem test_wf_mul_AB : (Instr.mul 8#8 0#8).wellFormed = false ∧ (Instr.mul 0#8 8#8).wellFormed = false := by decide
theorem test_wf_push_A : (Instr.push 8#8).wellFormed = false := by decide
theorem test_wf_pop_A : (Instr.pop 8#8).wellFormed = false := by decide
theorem test_wf_call_A : (Instr.call 255#8).wellFormed = false := by decide
theorem test_wf_jmp_A : (Instr.jmp 8#8).wellFormed = false := by decide
theorem test_wf_cmp_AB : (Instr.cmp 8#8 0#8).wellFormed = false ∧ (Instr.cmp 0#8 8#8).wellFormed = false := by decide
theorem test_wf_jeq_A : (Instr.jeq 9#8).wellFormed = false := by decide
theorem test_wf_jne_A : (Instr.jne 8#8).wellFormed = false := by decide
theorem test_wf_st_AB : (Instr.st 8#8 0#8).wellFormed = false ∧ (Instr.st 0#8 8#8).wellFormed = false := by decide
theorem test_wf_none : Instr.hlt.wellFormed = true ∧ Instr.ret.wellFormed = true := by decide

/-- A map with two equal bytes, and one with a byte of the wrong operand count, are not maps of this hardware. -/
theorem test_wf_map : ¬ { defaultOpcodeMap with mul := 0xA0#8 }.wellFormed ∧
    ¬ { defaultOpcodeMap with prn := 0x07#8 }.wellFormed ∧ defaultOpcodeMap.wellFormed := by decide

/-! ## Decoding: a word of each row, written out bit by bit from the "encoding" column of spec/opcode_table.json -/

theorem test_decode_hlt : decode 0b00000001#8 0xFF#8 0xFF#8 = .ok .hlt := by decide
theorem test_decode_ldi : decode 0b10000010#8 0b00000101#8 0b10100011#8 = .ok (.ldi 5#8 0xA3#8) := by decide
theorem test_decode_prn : decode 0b01000111#8 0b00000110#8 0xFF#8 = .ok (.prn 6#8) := by decide
theorem test_decode_add : decode 0b10100000#8 0b00000010#8 0b00000101#8 = .ok (.add 2#8 5#8) := by decide
theorem test_decode_mul : decode 0b10100010#8 0b00000001#8 0b00000111#8 = .ok (.mul 1#8 7#8) := by decide
theorem test_decode_push : decode 0b01000101#8 0b00000011#8 0xFF#8 = .ok (.push 3#8) := by decide
theorem test_decode_pop : decode 0b01000110#8 0b00000100#8 0xFF#8 = .ok (.pop 4#8) := by decide
theorem test_decode_call : decode 0b01010000#8 0b00000001#8 0xFF#8 = .ok (.call 1#8) := by decide
theorem test_decode_ret : decode 0b00010001#8 0xFF#8 0xFF#8 = .ok .ret := by decide
theorem test_decode_jmp : decode 0b01010100#8 0b00000011#8 0xFF#8 = .ok (.jmp 3#8) := by decide
theorem test_decode_cmp : decode 0b10100111#8 0b00000000#8 0b00000001#8 = .ok (.cmp 0#8 1#8) := by decide
theorem test_decode_jeq : decode 0b01010101#8 0b00000010#8 0xFF#8 = .ok (.jeq 2#8) := by decide
theorem test_decode_jne : decode 0b01010110#8 0b00000111#8 0xFF#8 = .ok (.jne 7#8) := by decide
theorem test_decode_st : decode 0b10000100#8 0b00000010#8 0b00000011#8 = .ok (.st 2#8 3#8) := by decide

/-- V1, V2, V3: 0x00, a byte with bits [7:6] = 3, and a byte that is not in the map are rejected by name. -/
theorem test_decode_rejects : decode 0x00#8 0#8 0#8 = .error (.invalidOpcode 0x00#8) ∧
    decode 0xC0#8 0#8 0#8 = .error (.invalidOpcode 0xC0#8) ∧ decode 0x02#8 0#8 0#8 = .error (.invalidOpcode 0x02#8) := by
  decide

/-- R53: the image of the worked example, byte for byte. -/
theorem test_encode_R53 :
    encode (.ldi 0#8 8#8) ++ encode (.ldi 1#8 9#8) ++ encode (.add 0#8 1#8) ++ encode (.prn 0#8) ++ encode .hlt =
      [0x82#8, 0x00#8, 0x08#8, 0x82#8, 0x01#8, 0x09#8, 0xA0#8, 0x00#8, 0x01#8, 0x47#8, 0x00#8, 0x01#8] := by decide

/-- The opcode table's own numbers: its match values 0x01, 0x4700, 0x820000 with operand bits set. -/
theorem test_table_words : decodeTableWord 8 0x01 = some .hlt ∧ decodeTableWord 16 0x4703 = some (.prn 3#8) ∧
    decodeTableWord 24 0x82052A = some (.ldi 5#8 0x2A#8) ∧ decodeTableWord 24 0xA70000 = some (.cmp 0#8 0#8) := by decide

/-- A table word placed at `pc` after reset is run by the very next step. -/
theorem test_fetchWord_runs : (after (State.reset.withFetchWord 24 0x82052A)).map (fun t => (t.reg .r5, t.pc)) =
    some (0x2A#8, 3#8) := by decide

/-! ## The cycle and faults: V-CYC, V-EXC -/

/-- V1, V82. -/
theorem test_V1_fault : after State.reset =
    some { State.reset with fault := some ⟨.invalidOpcode, 0#8, 0x00#8⟩, running := false } := by decide

/-- V4: operand B is read at address 0 and `pc` wraps. -/
theorem test_V4_wrap :
    (after { setup regs0 0xFE [0x82#8, 0x02#8] with pc := 0xFE#8, mem := [(0, 0x2A#8), (0xFE, 0x82#8), (0xFF, 0x02#8)] }).map
      (fun t => (t.reg .r2, t.pc)) = some (0x2A#8, 0x01#8) := by decide

/-- V8: the register of a JEQ that would not be taken is still checked. -/
theorem test_V8_checked : (after (setup regs0 0 [0x55#8, 0x09#8])).map (fun t => (t.fault, t.running, t.pc)) =
    some (some ⟨.regIndexRange, 0#8, 0x55#8⟩, false, 0#8) := by decide

/-- V10: the fault is precise. -/
theorem test_V10_precise : (after (setup { regs0 with r0 := 5#8 } 0 [0xA0#8, 0x00#8, 0x09#8])).map
    (fun t => (t.fault, t.reg .r0, t.cycle)) = some (some ⟨.regIndexRange, 0#8, 0xA0#8⟩, 5#8, none) := by decide

/-- V13: a stopped core takes no step. -/
theorem test_V13_stopped : after { State.reset with running := false } = some { State.reset with running := false } := by
  decide

/-! ## Each instruction -/

/-- V5: HLT at 0xFF. -/
theorem test_hlt_V5 : (after { setup regs0 0xFF [0x01#8] with pc := 0xFF#8 }).map
    (fun t => (t.running, t.fault, t.pc)) = some (false, none, 0x00#8) := by decide

/-- V16: PRN R6 after reset. -/
theorem test_prn_V16 : (after (setup regs0 0 [0x47#8, 0x06#8])).map (fun t => (t.out, t.pc)) = some ([244#8], 2#8) := by
  decide

/-- V17: earlier output is kept. -/
theorem test_prn_V17 : (after { setup { regs0 with r3 := 255#8 } 0 [0x47#8, 0x03#8] with out := [1#8] }).map State.out =
    some [1#8, 255#8] := by decide

/-- V12, V21: the literal is not checked; LDI may move the stack. -/
theorem test_ldi_V12 : (after (setup regs0 0 [0x82#8, 0x00#8, 0xFF#8])).map (fun t => (t.reg .r0, t.fault)) =
    some (255#8, none) := by decide
theorem test_ldi_V21 : (after (setup regs0 0 [0x82#8, 0x06#8, 0x10#8])).map (fun t => (t.sp, t.pc)) =
    some (0x10#8, 3#8) := by decide

/-- V23, V26: the address is in A and the value in B; a STORE over its own operand B uses the latched one. -/
theorem test_st_V23 : (after (setup { regs0 with r0 := 0x80#8, r1 := 7#8 } 0 [0x84#8, 0x00#8, 0x01#8])).map
    (fun t => (t.memRead 0x80#8, t.memRead 7#8, t.pc)) = some (7#8, 0#8, 3#8) := by decide
theorem test_st_V26 :
    (after { setup { regs0 with r0 := 0x22#8, r1 := 5#8 } 0x20 [0x84#8, 0x00#8, 0x01#8] with pc := 0x20#8 }).map
      (fun t => (t.memRead 0x22#8, t.pc)) = some (5#8, 0x23#8) := by decide

/-- V30, V32: 300 mod 256; no flag is written. -/
theorem test_add_V30 : (after (setup { regs0 with r0 := 200#8, r1 := 100#8 } 0 [0xA0#8, 0x00#8, 0x01#8])).map
    (fun t => (t.reg .r0, t.reg .r1)) = some (44#8, 100#8) := by decide
theorem test_add_V32 :
    (after { setup { regs0 with r0 := 255#8, r1 := 1#8 } 0 [0xA0#8, 0x00#8, 0x01#8] with fl := .less }).map
      (fun t => (t.reg .r0, t.fl)) = some (0#8, .less) := by decide

/-- V37, V36. -/
theorem test_mul_V37 : (after (setup { regs0 with r0 := 255#8, r1 := 255#8 } 0 [0xA2#8, 0x00#8, 0x01#8])).map
    (fun t => t.reg .r0) = some 1#8 := by decide
theorem test_mul_V36 : (after (setup { regs0 with r0 := 16#8 } 0 [0xA2#8, 0x00#8, 0x00#8])).map (fun t => t.reg .r0) =
    some 0#8 := by decide

/-- V41, V45: the comparison is unsigned. -/
theorem test_cmp_V41 : (after (setup { regs0 with r0 := 3#8, r1 := 5#8 } 0 [0xA7#8, 0x00#8, 0x01#8])).map State.fl =
    some .less := by decide
theorem test_cmp_V45 : (after (setup { regs0 with r0 := 255#8, r1 := 1#8 } 0 [0xA7#8, 0x00#8, 0x01#8])).map State.fl =
    some .greater := by decide

/-- V50, V51: PUSH R6 pushes the decremented SP; SP wraps. -/
theorem test_push_V50 : (after (setup regs0 0 [0x45#8, 0x06#8])).map (fun t => (t.sp, t.memRead 0xF3#8)) =
    some (0xF3#8, 0xF3#8) := by decide
theorem test_push_V51 : (after (setup { regs0 with r6 := 0#8, r1 := 9#8 } 0x00 [0x45#8, 0x01#8])).map
    (fun t => (t.sp, t.memRead 0xFF#8, t.fault)) = some (0xFF#8, 9#8, none) := by decide

/-- V53, V54: the cell is not cleared; POP R6 leaves the popped value plus 1. -/
theorem test_pop_V53 :
    (after { setup { regs0 with r6 := 0xF3#8 } 0 [] with mem := [(0, 0x46#8), (1, 5#8), (0xF3, 200#8)] }).map
      (fun t => (t.reg .r5, t.sp, t.memRead 0xF3#8)) = some (200#8, 0xF4#8, 200#8) := by decide
theorem test_pop_V54 :
    (after { setup { regs0 with r6 := 0xF3#8 } 0 [] with mem := [(0, 0x46#8), (1, 6#8), (0xF3, 0x10#8)] }).map State.sp =
      some 0x11#8 := by decide

/-- V60, V61: the return address and operand A wrap; CALL R6 jumps to the decremented SP. -/
theorem test_call_V60 :
    (after { setup { regs0 with r1 := 0x40#8 } 0 [] with pc := 0xFF#8, mem := [(0, 1#8), (0xFF, 0x50#8)] }).map
      (fun t => (t.memRead 0xF3#8, t.pc)) = some (0x01#8, 0x40#8) := by decide
theorem test_call_V61 : (after { setup regs0 6 [0x50#8, 0x06#8] with pc := 6#8 }).map
    (fun t => (t.sp, t.memRead 0xF3#8, t.pc)) = some (0xF3#8, 8#8, 0xF3#8) := by decide

/-- V63, V65. -/
theorem test_ret_V63 : (after { setup { regs0 with r6 := 0xF3#8 } 0 [] with mem := [(0, 0x11#8), (0xF3, 8#8)] }).map
    (fun t => (t.pc, t.sp)) = some (8#8, 0xF4#8) := by decide
theorem test_ret_V65 : (after { setup { regs0 with r6 := 0xFF#8 } 0 [] with mem := [(0, 0x11#8), (0xFF, 0x30#8)] }).map
    (fun t => (t.pc, t.sp)) = some (0x30#8, 0x00#8) := by decide

/-- V66, V67: a target of 0 is taken. -/
theorem test_jmp_V66 : (after (setup { regs0 with r3 := 15#8 } 0 [0x54#8, 0x03#8])).map State.pc = some 15#8 := by decide
theorem test_jmp_V67 : (after { setup regs0 9 [0x54#8, 0x00#8] with pc := 9#8 }).map State.pc = some 0#8 := by decide

/-- V69, V72. -/
theorem test_jeq_V69 : (after { setup { regs0 with r2 := 40#8 } 12 [0x55#8, 0x02#8] with pc := 12#8, fl := .equal }).map
    State.pc = some 40#8 := by decide
theorem test_jeq_V72 : (after { setup { regs0 with r2 := 40#8 } 12 [0x55#8, 0x02#8] with pc := 12#8 }).map State.pc =
    some 14#8 := by decide

/-- V73, V77. -/
theorem test_jne_V73 : (after { setup { regs0 with r2 := 40#8 } 12 [0x56#8, 0x02#8] with pc := 12#8 }).map State.pc =
    some 40#8 := by decide
theorem test_jne_V77 : (after { setup regs0 0xFE [0x56#8, 0x02#8] with pc := 0xFE#8, fl := .equal }).map State.pc =
    some 0x00#8 := by decide

/-- R80, R98: an unsupported ALU request within a cycle. -/
theorem test_unsupported_alu : (match execAluOp (.other 3) 0#8 1#8 (setup regs0 0 [0xA0#8, 0x00#8, 0x01#8]).beginCycle with
    | .next t => some (t.fault, t.running, t.pc)
    | .fault _ => none
    | .refused _ => none) = some (some ⟨.unsupportedAluOp, 0#8, 0xA0#8⟩, false, 0#8) := by decide

/-! ## Witnesses: for each statement with hypotheses, a state and operands that meet them -/

/-- A running core that fetches HLT, ST R0, R1, and so on. -/
def fetching (bytes : List Byte) : State := setup regs0 0 bytes

/-- A core within a cycle, with ADD's bytes latched. -/
def inCycle : State := { State.reset with cycle := some ⟨0xA0#8, 0x00#8, 0x01#8⟩ }

def halted : State := { State.reset with running := false, pc := 1#8 }

def faulted : State := State.reset.faultedWith .invalidOpcode 0x00#8

/-- Both clauses at their boundary: 256 bytes are loaded, 257 are refused; and the clause on cells at the last byte. -/
theorem witness_LoadPlacesImageFromZero : (List.replicate 256 0x11#8).length ≤ 256 ∧
    256 < (List.replicate 257 0x11#8).length ∧ (hostLoad [0x82#8, 0x00#8, 0x01#8] State.reset).map
      (fun t => (t.memRead 0#8, t.memRead 2#8, t.memRead 3#8)) = some (0x82#8, 0x01#8, 0#8) :=
  ⟨by rw [List.length_replicate], by rw [List.length_replicate]; decide, by decide⟩

theorem witness_LoadedStateMeetsInvariant : ∃ t, hostLoad [0x01#8] State.reset = some t := ⟨_, rfl⟩

theorem witness_EveryStepKeepsInvariant : State.Inv (fetching [0x45#8, 0x06#8]) ∧
    ∃ t, step (fetching [0x45#8, 0x06#8]) = .next t := ⟨by decide, _, rfl⟩

theorem witness_StatusPortGivesOneCondition : State.reset.Inv ∧ halted.Inv ∧ faulted.Inv ∧
    State.reset.status = .running ∧ halted.status = .halted ∧
    faulted.status = .faulted ⟨.invalidOpcode, 0#8, 0#8⟩ := by decide

/-- An instruction of each group is a member of its list. -/
theorem witness_OpcodeTableRowsDecode : Instr.hlt ∈ [Instr.hlt, .ret] ∧ Instr.jne 7#8 ∈ [Instr.prn 7#8, .jne 7#8] ∧
    Instr.st 7#8 7#8 ∈ [Instr.ldi 7#8 7#8, .st 7#8 7#8] := by decide

/-- Another map than the default one meets the hypothesis too. -/
theorem witness_DecodeOfEncodeIsInstruction : defaultOpcodeMap.wellFormed ∧
    { defaultOpcodeMap with hlt := 0x3F#8, st := 0xBF#8 }.wellFormed := by decide

theorem witness_EncodeOfDecodeIsBytes : defaultOpcodeMap.wellFormed ∧
    decodeWith defaultOpcodeMap 0x84#8 0xFF#8 0x00#8 = .ok (.st 0xFF#8 0x00#8) := by decide

theorem witness_UndeclaredOperandBytesAreIgnored :
    (decodeWith defaultOpcodeMap 0x11#8 1#8 2#8 = .ok .ret ∧ Instr.ret.operandCount = 0) ∧
    (decodeWith defaultOpcodeMap 0x56#8 1#8 2#8 = .ok (.jne 1#8) ∧ (Instr.jne 1#8).operandCount = 1) := by decide

theorem witness_TableWordPlacedAtPcIsFetchedNext : decodeTableWord 24 0xA00707 = some (.add 7#8 7#8) ∧
    (3#8 ≠ State.reset.pc ∧ 3#8 ≠ State.reset.pc + 1#8 ∧ 3#8 ≠ State.reset.pc + 2#8) := by decide

theorem witness_StepRunsTheDecodedInstruction : (fetching [0x84#8, 0x00#8, 0x07#8]).running = true ∧
    (fetching [0x84#8, 0x00#8, 0x07#8]).Fetches defaultOpcodeMap (.st 0#8 7#8) ∧ (Instr.st 0#8 7#8).wellFormed = true := by
  decide

theorem witness_StoppedCoreStaysInItsState : halted.running = false ∧ faulted.running = false := by decide

theorem witness_EveryStepCompletesOrFaultsPrecisely : State.reset.cycle = none ∧ halted.cycle = none := by decide

theorem witness_ByteOutsideOpcodeMapFaults :
    (State.reset.running = true ∧ State.reset.cycle = none ∧ State.reset.memRead State.reset.pc ∉ defaultOpcodeMap.bytes) ∧
    ((fetching [0xA7#8]).running = true ∧ (fetching [0xA7#8]).cycle = none ∧
      (fetching [0xA7#8]).memRead (fetching [0xA7#8]).pc ∈ defaultOpcodeMap.bytes) := by decide

/-- Every boundary of the listed ranges, and a neighbour that is not listed. -/
theorem witness_ListedBytesAreInvalidOpcodes :
    (∀ op ∈ [0x00#8, 0x02#8, 0x10#8, 0x12#8, 0x44#8, 0x48#8, 0x4F#8, 0x51#8, 0x53#8, 0x57#8, 0x81#8, 0x83#8, 0x85#8, 0x9F#8,
      0xA1#8, 0xA3#8, 0xA6#8, 0xA8#8, 0xFF#8], invalidOpcodeByte op) ∧
    (∀ op ∈ [0x01#8, 0x11#8, 0x45#8, 0x46#8, 0x47#8, 0x50#8, 0x54#8, 0x55#8, 0x56#8, 0x82#8, 0x84#8, 0xA0#8, 0xA2#8, 0xA7#8],
      ¬ invalidOpcodeByte op) ∧
    ((fetching [0xFF#8]).running = true ∧ (fetching [0xFF#8]).cycle = none ∧ (fetching [0xFF#8]).memRead 0#8 = 0xFF#8) :=
  ⟨by decide, by decide, by decide⟩

/-- One register operand at 8 and at 255, two with only B out of range, and both in range at 7. -/
theorem witness_RegisterOperandOutOfRangeFaults :
    (fetching [0x55#8, 0x08#8]).Fetches defaultOpcodeMap (.jeq 8#8) ∧
    (fetching [0x47#8, 0xFF#8]).Fetches defaultOpcodeMap (.prn 255#8) ∧
    (fetching [0xA0#8, 0x07#8, 0x08#8]).Fetches defaultOpcodeMap (.add 7#8 8#8) ∧
    (fetching [0xA0#8, 0x07#8, 0x07#8]).Fetches defaultOpcodeMap (.add 7#8 7#8) ∧
    (fetching [0x82#8, 0x07#8, 0xFF#8]).Fetches defaultOpcodeMap (.ldi 7#8 255#8) ∧
    (fetching [0x11#8]).Fetches defaultOpcodeMap .ret ∧
    (7 < (8#8).toNat ∧ 7 < (255#8).toNat ∧ (7#8).toNat ≤ 7) ∧
    (fetching [0x55#8, 0x08#8]).running = true ∧ (fetching [0x55#8, 0x08#8]).cycle = none := by decide

theorem witness_UnsupportedAluRequestFaults : inCycle.cycle = some ⟨0xA0#8, 0x00#8, 0x01#8⟩ ∧
    (7 < (8#8).toNat ∨ 7 < (0#8).toNat) ∧ (7 < (0#8).toNat ∨ 7 < (8#8).toNat) := by decide

theorem witness_NoStepRaisesUnsupportedAluOp :
    ∃ t f, stepWith defaultOpcodeMap State.reset = .next t ∧ t.fault = some f ∧ t.fault ≠ State.reset.fault :=
  ⟨faulted, ⟨.invalidOpcode, 0#8, 0#8⟩, rfl, rfl, by decide⟩

/-- HLT, a fault, and a step after which the core runs on. -/
theorem witness_OnlyHaltOrFaultClearsRunning : State.Inv (fetching [0x01#8]) ∧
    (∃ t, stepWith defaultOpcodeMap (fetching [0x01#8]) = .next t ∧ t.running = false) ∧
    (fetching [0x01#8]).Fetches defaultOpcodeMap .hlt ∧
    (∃ t, stepWith defaultOpcodeMap State.reset = .next t ∧ t.fault ≠ none) ∧
    (∃ t, stepWith defaultOpcodeMap (fetching [0x47#8, 0x00#8]) = .next t ∧ t.running = true) :=
  ⟨by decide, ⟨_, rfl, by decide⟩, by decide, ⟨_, rfl, by decide⟩, ⟨_, rfl, by decide⟩⟩

theorem witness_FaultRecordIsNeverChanged : faulted.Inv ∧ faulted.fault = some ⟨.invalidOpcode, 0#8, 0#8⟩ ∧
    Host.Core.run core 1 faulted = .next faulted := ⟨by decide, by decide, rfl⟩

/-- COMPARE right after reset changes FL (V48); steps that run none: of a stopped core, of an instruction that is no CMP,
of a CMP with an operand out of range; a run of one such step; a run from a state whose FL is not NONE. -/
theorem witness_FlagIsNeverNoneAgain :
    ((fetching [0xA7#8, 0x00#8, 0x07#8]).running = true ∧
      (fetching [0xA7#8, 0x00#8, 0x07#8]).Fetches defaultOpcodeMap (.cmp Reg.r0.index Reg.r7.index)) ∧
    (∃ t, stepWith defaultOpcodeMap (fetching [0xA7#8, 0x00#8, 0x01#8]) = .next t ∧
      t.fl ≠ (fetching [0xA7#8, 0x00#8, 0x01#8]).fl) ∧
    ((∃ t, stepWith defaultOpcodeMap halted = .next t) ∧ halted.running = false) ∧
    ((∃ t, stepWith defaultOpcodeMap (fetching [0xA7#8, 0x08#8, 0x00#8]) = .next t) ∧
      ∀ rA rB : Reg, ¬ (fetching [0xA7#8, 0x08#8, 0x00#8]).Fetches defaultOpcodeMap (.cmp rA.index rB.index)) ∧
    ((∃ t, Host.Core.run core 1 (fetching [0xA0#8, 0x00#8, 0x01#8]) = .next t) ∧
      ∀ (k : Nat) (u : State), k < 1 → Host.Core.run core k (fetching [0xA0#8, 0x00#8, 0x01#8]) = .next u →
        u.running = false ∨ ∀ rA rB : Reg, ¬ u.Fetches defaultOpcodeMap (.cmp rA.index rB.index)) ∧
    ({ halted with fl := .less }.fl ≠ .none ∧ Host.Core.run core 1 { halted with fl := .less } = .next { halted with fl := .less }) := by
  refine ⟨by decide, ⟨_, rfl, by decide⟩, ⟨⟨_, rfl⟩, by decide⟩, ⟨⟨_, rfl⟩, fun rA rB => ?_⟩, ⟨⟨_, rfl⟩, ?_⟩, by decide, rfl⟩
  · cases rA <;> cases rB <;> decide
  · intro k u hk hu
    obtain rfl : k = 0 := by omega
    cases hu
    exact .inr fun _ _ => nofun

/-- Both runs answer a next state; an instruction that is no CMP and no conditional jump, and a CMP on registers. -/
theorem witness_FlagIsWrittenAndReadOnlyWhereSaid :
    (∃ t, stepWith defaultOpcodeMap (fetching [0x01#8]) = .next t) ∧
    (∀ a b : Byte, ¬ (fetching [0x01#8]).Fetches defaultOpcodeMap (.cmp a b)) ∧
    (∃ t u, exec (.push 3#8) State.reset = .next t ∧ exec (.push 3#8) { State.reset with fl := .equal } = .next u) ∧
    (∃ t u, exec (.cmp 0#8 7#8) State.reset = .next t ∧ exec (.cmp 0#8 7#8) { State.reset with fl := .equal } = .next u) ∧
    ((∀ a b, Instr.push 3#8 ≠ .cmp a b) ∧ ∀ a, Instr.push 3#8 ≠ .jeq a ∧ Instr.push 3#8 ≠ .jne a) ∧
    Instr.cmp 0#8 7#8 = .cmp Reg.r0.index Reg.r7.index :=
  ⟨⟨_, rfl⟩, fun _ _ => nofun, ⟨_, _, rfl, rfl⟩, ⟨_, _, rfl, rfl⟩, ⟨fun _ _ => nofun, fun _ => ⟨nofun, nofun⟩⟩, rfl⟩

theorem witness_OutputGrowsOnlyByPrint :
    (∃ t, stepWith defaultOpcodeMap (fetching [0x47#8, 0x07#8]) = .next t) ∧
    ((fetching [0x47#8, 0x07#8]).running = true ∧ (fetching [0x47#8, 0x07#8]).Fetches defaultOpcodeMap (.prn Reg.r7.index)) ∧
    halted.running = false := ⟨⟨_, rfl⟩, by decide, by decide⟩

/-- A destination next to an undisturbed neighbour, at both ends of the file. -/
theorem witness_RegistersAreUnchangedButDestinations :
    (∃ t, exec (.ldi 0#8 9#8) State.reset = .next t) ∧ 0#8 ≠ Reg.r7.index ∧
    (∃ t, exec (.pop 7#8) State.reset = .next t) ∧ 7#8 ≠ Reg.r0.index ∧ Reg.r0 ≠ Reg.r6 ∧
    (∃ t, exec .ret State.reset = .next t) ∧ (∃ t, exec (.st 7#8 7#8) State.reset = .next t) :=
  ⟨⟨_, rfl⟩, by decide, ⟨_, rfl⟩, by decide, by decide, ⟨_, rfl⟩, ⟨_, rfl⟩⟩

/-- An address next to the stored cell, for ST with an operand in range and one out of it, PUSH and CALL. -/
theorem witness_MemoryIsUnchangedOutsideTheStoredCell :
    (∃ t, exec (.st 6#8 0#8) State.reset = .next t) ∧ (∀ rA : Reg, 6#8 = rA.index → 0xF3#8 ≠ State.reset.reg rA) ∧
    (∀ rA : Reg, 8#8 ≠ rA.index) ∧
    (∃ t, exec (.push 6#8) State.reset = .next t) ∧ (∃ t, exec (.call 6#8) State.reset = .next t) ∧
    0xF2#8 ≠ State.reset.decSp.sp ∧ 0xF4#8 ≠ State.reset.decSp.sp ∧ (∃ t, exec (.pop 0#8) State.reset = .next t) := by
  refine ⟨⟨_, rfl⟩, fun rA h => ?_, fun rA => ?_, ⟨_, rfl⟩, ⟨_, rfl⟩, by decide, by decide, ⟨_, rfl⟩⟩
  · cases rA <;> first | exact absurd h (by decide) | decide
  · cases rA <;> decide

theorem witness_StatusAndOutputAreUnchangedButByHaltAndPrint : (Instr.cmp 7#8 7#8).wellFormed = true ∧
    (∃ t, exec (.cmp 7#8 7#8) State.reset = .next t) ∧ Instr.cmp 7#8 7#8 ≠ .hlt ∧ (∀ a, Instr.cmp 7#8 7#8 ≠ .prn a) :=
  ⟨by decide, ⟨_, rfl⟩, nofun, fun _ => nofun⟩

/-- A three-byte instruction whose last byte is at 0xFF, so that `pc` wraps to 0. -/
theorem witness_PcAdvancesByInstructionLength :
    let s := { setup regs0 0xFD [0xA0#8, 0x00#8, 0x01#8] with pc := 0xFD#8 }
    defaultOpcodeMap.wellFormed ∧ s.running = true ∧ s.Fetches defaultOpcodeMap (.add 0#8 1#8) ∧
      (Instr.add 0#8 1#8).wellFormed = true ∧
      (∀ a, Instr.add 0#8 1#8 ≠ .call a ∧ Instr.add 0#8 1#8 ≠ .jmp a ∧ Instr.add 0#8 1#8 ≠ .jeq a ∧
        Instr.add 0#8 1#8 ≠ .jne a) ∧ Instr.add 0#8 1#8 ≠ .ret :=
  ⟨by decide, by decide, by decide, by decide, fun _ => ⟨nofun, nofun, nofun, nofun⟩, nofun⟩

theorem witness_TargetZeroIsTaken :
    State.reset.reg .r0 = 0#8 ∧ { State.reset with fl := .equal }.fl = .equal ∧
    { State.reset with fl := .equal }.reg .r0 = 0#8 ∧ State.reset.fl ≠ .equal ∧ State.reset.decSp.reg .r0 = 0#8 ∧
    (setup { regs0 with r6 := 1#8 } 0 []).decSp.reg .r6 = 0#8 ∧
    State.reset.memRead (State.reset.reg .r6) = 0#8 := by decide

/-- Two writes in either order give memories that read alike. -/
theorem witness_MemoriesThatReadAlikeAreEqual :
    Memory.wf [(0, 1#8), (255, 2#8)] ∧ Memory.wf ((Memory.write [] 255 2#8).write 0 1#8) ∧
    ∀ a : Nat, a < 256 → Memory.read [(0, 1#8), (255, 2#8)] a = Memory.read ((Memory.write [] 255 2#8).write 0 1#8) a :=
  ⟨by decide, by decide, fun _ _ => rfl⟩

/-- A STORE to its own operand byte, and one to the byte after it. -/
theorem witness_StoreOverCodeIsSeenOnlyByLaterFetches :
    let s := setup { regs0 with r0 := 3#8 } 0 [0x84#8, 0x00#8, 0x01#8]
    s.running = true ∧ s.cycle = none ∧ s.Fetches defaultOpcodeMap (.st Reg.r0.index Reg.r1.index) ∧
      s.reg .r0 = s.pc + 3#8 := by decide

theorem witness_HaltEndsTheRun : (fetching [0x01#8]).running = true ∧ (fetching [0x01#8]).cycle = none ∧
    (fetching [0x01#8]).Fetches defaultOpcodeMap .hlt := by decide

theorem witness_FlagBitsAreOneHot : Flag.less.bits = (aluCompare 0#8 255#8).bits := by decide

/-! For the clauses on REG_INDEX_RANGE: a core within a cycle, and operand bytes at both ends of 8 to 255. -/

theorem witness_PrintEmitsRegister : (∃ l, inCycle.cycle = some l) ∧ 7 < (8#8).toNat ∧ 7 < (255#8).toNat :=
  ⟨⟨_, rfl⟩, by decide, by decide⟩

theorem witness_LoadImmediateWritesLiteral : (∃ l, inCycle.cycle = some l) ∧ 7 < (8#8).toNat ∧ Reg.r7 ≠ .r6 :=
  ⟨⟨_, rfl⟩, by decide, by decide⟩

theorem witness_StoreWritesCell : (∃ l, inCycle.cycle = some l) ∧ (7 < (7#8).toNat ∨ 7 < (8#8).toNat) ∧
    0xF3#8 ≠ State.reset.reg .r6 ∧ 0xF5#8 ≠ State.reset.reg .r6 := ⟨⟨_, rfl⟩, by decide, by decide, by decide⟩

theorem witness_AddWritesSumModulo256 : (∃ l, inCycle.cycle = some l) ∧ (7 < (8#8).toNat ∨ 7 < (7#8).toNat) ∧
    Reg.r1 ≠ .r0 := ⟨⟨_, rfl⟩, by decide, by decide⟩

theorem witness_MultiplyWritesProductModulo256 : (∃ l, inCycle.cycle = some l) ∧ (7 < (7#8).toNat ∨ 7 < (255#8).toNat) ∧
    Reg.r1 ≠ .r0 := ⟨⟨_, rfl⟩, by decide, by decide⟩

theorem witness_CompareSetsFlagByUnsignedOrder : (∃ l, inCycle.cycle = some l) ∧ (7 < (255#8).toNat ∨ 7 < (255#8).toNat) :=
  ⟨⟨_, rfl⟩, by decide⟩

theorem witness_PushWritesBelowStackTop : (∃ l, inCycle.cycle = some l) ∧ 7 < (8#8).toNat ∧ Reg.r7 ≠ .r6 ∧
    0xF4#8 ≠ State.reset.reg .r6 - 1#8 := ⟨⟨_, rfl⟩, by decide, by decide, by decide⟩

theorem witness_PopLoadsStackTop : (∃ l, inCycle.cycle = some l) ∧ 7 < (8#8).toNat ∧
    (Reg.r0 ≠ .r6 ∧ Reg.r6 = .r6 ∧ Reg.r7 ≠ .r0 ∧ Reg.r7 ≠ .r6) := ⟨⟨_, rfl⟩, by decide, by decide⟩

theorem witness_PushThenPopRestoresRegisters : 0xF4#8 ≠ State.reset.reg .r6 - 1#8 := by decide

/-- Another register than R6, and R6 itself, after PUSH of R6 and of another. -/
theorem witness_PushThenPopMovesValue : (Reg.r1 ≠ .r6 ∧ Reg.r1 ≠ .r6) ∧ (Reg.r6 ≠ .r1 ∧ Reg.r6 = .r6) := by decide

theorem witness_CallPushesReturnAddress : (∃ l, inCycle.cycle = some l) ∧ 7 < (8#8).toNat ∧ Reg.r7 ≠ .r6 ∧
    0xF2#8 ≠ State.reset.reg .r6 - 1#8 := ⟨⟨_, rfl⟩, by decide, by decide, by decide⟩

theorem witness_ReturnPopsTarget : Reg.r0 ≠ Reg.r6 ∧ Reg.r7 ≠ Reg.r6 := by decide

/-- The state right after a CALL is one that has SP and the cell as the CALL left them (W6). -/
theorem witness_ReturnResumesAfterCall : ∃ t, exec (.call Reg.r1.index) State.reset = .next t ∧
    t.reg .r6 = t.reg .r6 ∧ t.memRead (t.reg .r6) = t.memRead (t.reg .r6) := ⟨_, rfl, rfl, rfl⟩

theorem witness_JumpGoesToRegister : (∃ l, inCycle.cycle = some l) ∧ 7 < (8#8).toNat ∧ 7 < (255#8).toNat :=
  ⟨⟨_, rfl⟩, by decide, by decide⟩

theorem witness_JumpIfEqualTakenOnEqual : (∃ l, inCycle.cycle = some l) ∧ 7 < (9#8).toNat ∧
    ({ State.reset with fl := .equal }.fl = .equal ∧ State.reset.fl ≠ .equal) := ⟨⟨_, rfl⟩, by decide, by decide⟩

theorem witness_JumpIfNotEqualTakenOtherwise : (∃ l, inCycle.cycle = some l) ∧ 7 < (8#8).toNat ∧
    (State.reset.fl = .less ∨ State.reset.fl = .greater ∨ State.reset.fl = .none) ∧
    { State.reset with fl := .equal }.fl = .equal := ⟨⟨_, rfl⟩, by decide, by decide, by decide⟩

end Sys2Proof.Tests
end

section
/-! PROOFS of the family 10_state.md. First the effects of an instruction as one relation, `Executes`, and what it says
of each piece of state; then the same for a step and for a run; then the obligations. -/

namespace Sys2Proof.Machine

/-! ## The effect of one instruction -/

/-- `Executes s i t`: the instruction `i`, run in `s`, leaves `t`. One case for each instruction with operands that name
registers, and one for a register operand out of range (R60); `exec_eq_next_iff` ties it to `exec`. -/
inductive Executes (s : State) : Instr → State → Prop
  | hlt : Executes s .hlt (s.halt.updatePc 0 none)
  | ldi (rA : Reg) (imm : Byte) : Executes s (.ldi rA.index imm) ((s.setReg rA imm).updatePc 2 none)
  | prn (rA : Reg) : Executes s (.prn rA.index) ((s.emit (s.reg rA)).updatePc 1 none)
  | add (rA rB : Reg) :
      Executes s (.add rA.index rB.index) ((s.setReg rA (aluAdd (s.reg rA) (s.reg rB))).updatePc 2 none)
  | mul (rA rB : Reg) :
      Executes s (.mul rA.index rB.index) ((s.setReg rA (aluMul (s.reg rA) (s.reg rB))).updatePc 2 none)
  | push (rA : Reg) : Executes s (.push rA.index) ((s.pushByte fun t => t.reg rA).updatePc 1 none)
  | pop (rA : Reg) : Executes s (.pop rA.index) ((s.setReg rA (s.memRead s.sp)).incSp.updatePc 1 none)
  | call (rA : Reg) :
      Executes s (.call rA.index)
        ((s.pushByte fun t => u8 (t.pc.toNat + 2)).updatePc 1 (some (s.decSp.reg rA)))
  | ret : Executes s .ret (s.incSp.updatePc 0 (some (s.memRead s.sp)))
  | jmp (rA : Reg) : Executes s (.jmp rA.index) (s.updatePc 1 (some (s.reg rA)))
  | cmp (rA rB : Reg) :
      Executes s (.cmp rA.index rB.index) ((s.setFl (aluCompare (s.reg rA) (s.reg rB))).updatePc 2 none)
  | jeq (rA : Reg) :
      Executes s (.jeq rA.index) (s.updatePc 1 (if s.fl.isEqual then some (s.reg rA) else none))
  | jne (rA : Reg) :
      Executes s (.jne rA.index) (s.updatePc 1 (if s.fl.isEqual then none else some (s.reg rA)))
  | st (rA rB : Reg) :
      Executes s (.st rA.index rB.index) ((s.memWrite (s.reg rA) (s.reg rB)).updatePc 2 none)
  | outOfRange {i : Instr} (h : i.wellFormed = false) : Executes s i (s.raiseFault .regIndexRange)

theorem Executes.exec_eq {s t : State} {i : Instr} (h : Executes s i t) : exec i s = .next t := by
  cases h with
  | outOfRange hi => exact exec_ill_formed s hi
  | _ => simp

theorem exists_executes (i : Instr) (s : State) : ∃ t, Executes s i t := by
  rcases exec_cases s i with ⟨hi, -⟩ | (rfl | rfl) |
    ⟨rA, ⟨imm, rfl⟩ | rfl | rfl | rfl | rfl | rfl | rfl | rfl⟩ | ⟨rA, rB, rfl | rfl | rfl | rfl⟩
  · exact ⟨_, .outOfRange hi⟩
  all_goals exact ⟨_, by constructor⟩

theorem exec_eq_next_iff {i : Instr} {s t : State} : exec i s = .next t ↔ Executes s i t := by
  refine ⟨fun h => ?_, Executes.exec_eq⟩
  obtain ⟨u, hu⟩ := exists_executes i s
  obtain rfl : u = t := by simpa using hu.exec_eq.symm.trans h
  exact hu

section
variable {i : Instr} {s t : State}

/-- Every instruction keeps the canonical form of memory. -/
theorem exec_mem_wf (h : exec i s = .next t) (hs : s.mem.wf) : t.mem.wf := by
  cases exec_eq_next_iff.mp h with
  | push | call =>
    rw [State.updatePc_mem]
    exact State.pushByte_wf hs _
  | st => exact State.memWrite_wf hs _ _
  | _ => exact hs

/-- A core that runs on after an instruction was running before it and has the same fault record (R97). -/
theorem exec_of_running (h : exec i s = .next t) (ht : t.running = true) : s.running = true ∧ t.fault = s.fault := by
  cases exec_eq_next_iff.mp h with
  | outOfRange | hlt => cases ht
  | _ => exact ⟨ht, rfl⟩

/-- An instruction that clears `running` is HLT, or leaves a fault record (R20). -/
theorem exec_of_stops (h : exec i s = .next t) (hs : s.running = true) (ht : t.running = false) :
    i = .hlt ∨ t.fault ≠ none := by
  cases exec_eq_next_iff.mp h with
  | hlt => exact .inl rfl
  | outOfRange => exact .inr (by simp)
  | _ => exact absurd (hs.symm.trans ht) (by decide)

/-- Only a CMP on registers writes FL (R18). -/
theorem exec_fl (h : exec i s = .next t) (hi : ∀ rA rB : Reg, i ≠ .cmp rA.index rB.index) : t.fl = s.fl := by
  cases exec_eq_next_iff.mp h with
  | cmp rA rB => exact absurd rfl (hi rA rB)
  | _ => rfl

/-- Only a PRN of a register writes the output (R23). -/
theorem exec_out (h : exec i s = .next t) (hi : ∀ r : Reg, i ≠ .prn r.index) : t.out = s.out := by
  cases exec_eq_next_iff.mp h with
  | prn rA => exact absurd rfl (hi rA)
  | _ => rfl

/-- The conditional jumps change neither registers, memory nor output, taken or not (R90, R91). -/
theorem exec_condJump_frame (h : exec i s = .next t) {a : Byte} (hi : i = .jeq a ∨ i = .jne a) :
    t.regs = s.regs ∧ t.mem = s.mem ∧ t.out = s.out := by
  cases exec_eq_next_iff.mp h with
  | outOfRange | jeq | jne => exact ⟨rfl, rfl, rfl⟩
  | _ => simp at hi

/-- An instruction other than a conditional jump has, from another flag, the same effect on all else (R18). -/
theorem exec_setFl (h : exec i s = .next t) (hi : ∀ a, i ≠ .jeq a ∧ i ≠ .jne a) (f : Flag) :
    ∃ g, exec i (s.setFl f) = .next (t.setFl g) := by
  cases exec_eq_next_iff.mp h with
  | outOfRange hw => exact ⟨f, exec_ill_formed _ hw⟩
  | jeq rA => exact absurd rfl (hi rA.index).1
  | jne rA => exact absurd rfl (hi rA.index).2
  | cmp rA rB => exact ⟨aluCompare (s.reg rA) (s.reg rB), exec_cmp_index _ rA rB⟩
  | _ => exact ⟨f, by simp; rfl⟩

end

/-! ## The registers an instruction writes -/

/-- Registers with the same eight values are the same (R10). -/
theorem Regs.eq_of_get {g k : Regs} (h : ∀ r, g.get r = k.get r) : g = k := by
  cases g
  cases k
  simp only [Regs.mk.injEq]
  exact ⟨h .r0, h .r1, h .r2, h .r3, h .r4, h .r5, h .r6, h .r7⟩

/-- The bytes that name the registers an instruction writes: A (R73, R77, R78, R83), and SP, which is R6 (R82, R83, R86,
R87). `exec_reg` ties it to `exec`. -/
def destinations : Instr → List Byte
  | .ldi a _ | .add a _ | .mul a _ => [a]
  | .pop a => [a, Reg.r6.index]
  | .push _ | .call _ | .ret => [Reg.r6.index]
  | .hlt | .prn _ | .jmp _ | .cmp _ _ | .jeq _ | .jne _ | .st _ _ => []

/-- A register that an instruction does not write is as it was (R12). -/
theorem exec_reg {i : Instr} {s t : State} {r : Reg} (h : exec i s = .next t) (hr : r.index ∉ destinations i) :
    t.reg r = s.reg r := by
  cases exec_eq_next_iff.mp h with
  | ldi rA | add rA | mul rA =>
    have hA : r ≠ rA := by simpa [destinations, Reg.index_inj] using hr
    exact s.setReg_reg_other hA _
  | pop rA =>
    obtain ⟨hA, hSp⟩ : r ≠ rA ∧ r ≠ .r6 := by simpa [destinations, Reg.index_inj] using hr
    exact (State.incSp_reg_other _ hSp).trans (s.setReg_reg_other hA _)
  | push | call =>
    have hSp : r ≠ .r6 := by simpa [destinations, Reg.index_inj] using hr
    rw [State.updatePc_reg]
    exact s.pushByte_reg_other _ hSp
  | ret =>
    have hSp : r ≠ .r6 := by simpa [destinations, Reg.index_inj] using hr
    exact s.incSp_reg_other hSp
  | _ => rfl

/-! ## A step -/

/-- A running core that fetches `i` runs it within a cycle (R61, R64). -/
theorem stepWith_of_fetches {m : OpcodeMap} {s : State} {i : Instr} (hr : s.running = true) (hf : s.Fetches m i) :
    stepWith m s = endResult (exec i s.beginCycle) := by
  have hd : decodeWith m s.fetch.op s.fetch.a s.fetch.b = .ok i := hf
  simp [stepWith, runCycle, hr, hd]

/-- A core that has stopped holds its state (R54). -/
theorem stepWith_of_stopped {s : State} (hr : s.running = false) (m : OpcodeMap) : stepWith m s = .next s := by
  simp [stepWith, hr]

section
variable {m : OpcodeMap} {s t : State}

theorem stepWith_keeps_Inv (h : stepWith m s = .next t) (hs : s.Inv) : t.Inv := by
  have ⟨hwf, _, hrun⟩ := hs
  rcases stepWith_cases h with ⟨-, rfl⟩ | ⟨-, -, rfl⟩ | ⟨-, i, u, -, hu, rfl⟩
  · exact hs
  · exact ⟨hwf, rfl, fun ht => by cases ht⟩
  · refine ⟨exec_mem_wf (t := u) hu hwf, rfl, fun ht => ?_⟩
    obtain ⟨hr, hf⟩ := exec_of_running hu ht
    exact hf.trans (hrun hr)

/-- No step sets `running` (R20). -/
theorem stepWith_running (h : stepWith m s = .next t) (ht : t.running = true) : s.running = true := by
  rcases stepWith_cases h with ⟨-, rfl⟩ | ⟨hr, -⟩ | ⟨hr, -⟩
  · exact ht
  · exact hr
  · exact hr

/-- A step that clears `running` runs HLT, or leaves a fault record (R20, R97). -/
theorem stepWith_of_stops (h : stepWith m s = .next t) (hs : s.running = true) (ht : t.running = false) :
    s.Fetches m .hlt ∨ t.fault ≠ none := by
  rcases stepWith_cases h with ⟨hr, -⟩ | ⟨-, -, rfl⟩ | ⟨-, i, u, hi, hu, rfl⟩
  · exact absurd (hs.symm.trans hr) (by decide)
  · exact .inr (by simp)
  · rcases exec_of_stops hu hs ht with rfl | hf
    · exact .inl hi
    · exact .inr hf

/-- A step that runs no CMP on registers keeps FL (R18). -/
theorem stepWith_fl (h : stepWith m s = .next t)
    (hn : s.running = false ∨ ∀ rA rB : Reg, ¬ s.Fetches m (.cmp rA.index rB.index)) : t.fl = s.fl := by
  rcases stepWith_cases h with ⟨-, rfl⟩ | ⟨-, -, rfl⟩ | ⟨hr, i, u, hi, hu, rfl⟩
  · rfl
  · rfl
  · have hn := hn.resolve_left (by simp [hr])
    simpa using exec_fl hu fun rA rB e => hn rA rB (e ▸ hi)

/-- A step that runs a CMP on registers leaves FL other than NONE (R79). -/
theorem stepWith_cmp_fl_ne_none {rA rB : Reg} (hr : s.running = true) (hf : s.Fetches m (.cmp rA.index rB.index)) :
    ∃ t, stepWith m s = .next t ∧ t.fl ≠ .none := by
  rw [stepWith_of_fetches hr hf, exec_cmp_index]
  exact ⟨_, rfl, aluCompare_ne_none _ _⟩

/-- A step keeps FL or leaves it other than NONE (R17). -/
theorem stepWith_fl_cases (h : stepWith m s = .next t) : t.fl = s.fl ∨ t.fl ≠ .none := by
  by_cases hc : s.running = true ∧ ∃ rA rB : Reg, s.Fetches m (.cmp rA.index rB.index)
  · obtain ⟨hr, rA, rB, hf⟩ := hc
    obtain ⟨u, hu, hne⟩ := stepWith_cmp_fl_ne_none hr hf
    obtain rfl : u = t := by simpa using hu.symm.trans h
    exact .inr hne
  · refine .inl (stepWith_fl h ?_)
    by_cases hr : s.running = true
    · exact .inr fun rA rB hf => hc ⟨hr, rA, rB, hf⟩
    · exact .inl (by simpa using hr)

/-- A step that runs no PRN of a register keeps the output (R23). -/
theorem stepWith_out (h : stepWith m s = .next t)
    (hn : s.running = false ∨ ∀ r : Reg, ¬ s.Fetches m (.prn r.index)) : t.out = s.out := by
  rcases stepWith_cases h with ⟨-, rfl⟩ | ⟨-, -, rfl⟩ | ⟨hr, i, u, hi, hu, rfl⟩
  · rfl
  · rfl
  · have hn := hn.resolve_left (by simp [hr])
    simpa using exec_out hu fun r e => hn r (e ▸ hi)

end

/-! ## A run -/

/-- A core that has stopped holds its state through any run (R54, R106). -/
theorem run_of_stopped {s t : State} {n : Nat} (hr : s.running = false) (h : Host.Core.run core n s = .next t) :
    t = s := by
  refine run_keeps (P := (· = s)) (fun a b ha hab => ?_) rfl h
  subst ha
  simpa [eq_comm] using (stepWith_of_stopped hr defaultOpcodeMap).symm.trans hab

/-- A run none of whose steps runs a CMP on registers keeps FL (R18). -/
theorem run_fl {s t : State} {n : Nat} (h : Host.Core.run core n s = .next t)
    (hn : ∀ (k : Nat) (u : State), k < n → Host.Core.run core k s = .next u →
      u.running = false ∨ ∀ rA rB : Reg, ¬ u.Fetches defaultOpcodeMap (.cmp rA.index rB.index)) :
    t.fl = s.fl := by
  induction n generalizing s with
  | zero => cases h; rfl
  | succ n ih =>
    obtain ⟨v, hv, hrest⟩ := run_succ_eq_next h
    have hfirst : v.fl = s.fl := stepWith_fl hv (hn 0 s n.succ_pos rfl)
    have hlater : t.fl = v.fl := ih hrest fun k u hk hu =>
      hn (k + 1) u (Nat.succ_lt_succ hk) ((run_succ_of_next hv k).trans hu)
    exact hlater.trans hfirst

/-! ## The obligations -/

/-- Settles O5: an instruction keeps memory canonical and a core that runs on keeps its fault record; the rest of a
cycle clears the latch. -/
theorem everyStepKeepsInvariant : Obligations.EveryStepKeepsInvariant :=
  ⟨fun _ _ _ hs h => stepWith_keeps_Inv h hs, fun _ _ hs h => stepWith_keeps_Inv h hs⟩

/-- Settles O6: the invariant excludes the fourth combination of `running` and the fault record. -/
theorem statusPortGivesOneCondition : Obligations.StatusPortGivesOneCondition := by
  rintro s ⟨-, -, hrun⟩
  cases hr : s.running with
  | true => simp [State.status, hr, hrun hr]
  | false => cases hf : s.fault <;> simp [State.status, hr, hf]

/-- Settles O21; that a fault record after the step means a stopped core is the invariant of the next state. -/
theorem onlyHaltOrFaultClearsRunning : Obligations.OnlyHaltOrFaultClearsRunning := by
  refine ⟨fun _ => rfl, fun m s t hs h => ⟨stepWith_running h, stepWith_of_stops h, fun hr hc => ?_⟩⟩
  rcases hc with hhlt | hfault
  · rw [stepWith_of_fetches hr hhlt, exec_hlt] at h
    cases h
    rfl
  · obtain ⟨-, -, hrun⟩ := stepWith_keeps_Inv h hs
    exact Bool.eq_false_iff.mpr fun ht => hfault (hrun ht)

/-- Settles O22: under the invariant a core with a fault record has stopped. -/
theorem faultRecordIsNeverChanged : Obligations.FaultRecordIsNeverChanged := by
  rintro s t f n ⟨-, -, hrun⟩ hf h
  have hr : s.running = false := Bool.eq_false_iff.mpr fun hr => by simp [hrun hr] at hf
  obtain rfl := run_of_stopped hr h
  exact ⟨hf, rfl⟩

/-- Settles O23: a step keeps FL or leaves it other than NONE, by whether it runs a COMPARE on registers. -/
theorem flagIsNeverNoneAgain : Obligations.FlagIsNeverNoneAgain := by
  refine ⟨fun _ => rfl, fun _ _ _ => stepWith_fl, fun _ _ _ => run_fl, fun _ _ _ _ => stepWith_cmp_fl_ne_none,
    fun _ _ _ h => (stepWith_fl_cases h).resolve_left, fun s t n hs h => ?_⟩
  refine run_keeps (P := (·.fl ≠ .none)) (fun a b ha hab => ?_) hs h
  rcases stepWith_fl_cases hab with he | hne
  · exact he ▸ ha
  · exact hne

/-- Settles O24: the two runs are compared by `exec_setFl`, and for the conditional jumps by their frame. -/
theorem flagIsWrittenAndReadOnlyWhereSaid : Obligations.FlagIsWrittenAndReadOnlyWhereSaid := by
  refine ⟨fun m s t h hn => stepWith_fl h (.inr fun rA rB => hn _ _), fun i f s t u ht hu => ?_⟩
  have hother : (∀ a, i ≠ .jeq a ∧ i ≠ .jne a) → ∃ g, u = t.setFl g := fun hi => by
    obtain ⟨g, hg⟩ := exec_setFl ht hi f
    exact ⟨g, by simpa using hu.symm.trans hg⟩
  refine ⟨fun hi => exec_fl ht fun rA rB => hi _ _, ?_, fun hi => ?_, ?_⟩
  · by_cases hj : ∃ a, i = .jeq a ∨ i = .jne a
    · obtain ⟨a, ha⟩ := hj
      obtain ⟨htr, htm, hto⟩ := exec_condJump_frame ht ha
      obtain ⟨hur, hum, huo⟩ := exec_condJump_frame hu ha
      exact ⟨hur.trans htr.symm, hum.trans htm.symm, huo.trans hto.symm⟩
    · obtain ⟨g, rfl⟩ := hother fun a => not_or.mp fun ha => hj ⟨a, ha⟩
      exact ⟨rfl, rfl, rfl⟩
  · obtain ⟨g, rfl⟩ := hother hi
    rfl
  · rintro ⟨rA, rB, rfl⟩
    rw [exec_cmp_index] at ht hu
    cases ht
    cases hu
    rfl

/-- Settles O25: PRN of a register appends its value, and no other instruction writes the output. -/
theorem outputGrowsOnlyByPrint : Obligations.OutputGrowsOnlyByPrint := by
  refine fun m s t h => ⟨fun r hr hf => ?_, stepWith_out h⟩
  rw [stepWith_of_fetches hr hf, exec_prn_index] at h
  cases h
  rfl

/-- Settles O26: no clause's register is among the destinations of the clause's instructions. -/
theorem registersAreUnchangedButDestinations : Obligations.RegistersAreUnchangedButDestinations := by
  intro i s t r h
  refine ⟨fun hi => Regs.eq_of_get fun q => exec_reg h ?_, fun a b hi hA => exec_reg h ?_,
    fun a hi hA hSp => exec_reg h ?_, fun hi hSp => exec_reg h ?_⟩
  · rcases hi with rfl | ⟨a, rfl | rfl | rfl | rfl⟩ | ⟨a, b, rfl | rfl⟩ <;> simp [destinations]
  · rcases hi with rfl | rfl | rfl <;> simpa [destinations] using hA.symm
  · subst hi
    simpa [destinations, Reg.index_inj] using ⟨hA.symm, hSp⟩
  · rcases hi with rfl | ⟨a, rfl | rfl⟩ <;> simpa [destinations, Reg.index_inj] using hSp

/-- Settles O3. -/
theorem resetStateMeetsInvariant : Obligations.ResetStateMeetsInvariant :=
  have hreset : State.reset.Inv := ⟨reset_mem_wf, rfl, fun _ => rfl⟩
  ⟨hreset, fun _ => hreset⟩

/-- Settles O40, flag by flag. -/
theorem flagBitsAreOneHot : Obligations.FlagBitsAreOneHot := by
  refine ⟨rfl, rfl, rfl, rfl, fun f => ?_, fun f g => ?_⟩
  · cases f <;> decide
  · cases f <;> cases g <;> decide

end Sys2Proof.Machine
end

section
/-! PROOFS of the family 20_memory.md: the one cell an instruction stores to; the members of a canonical memory, which
decide the list; and the step of a core that fetches ST. -/

namespace Sys2Proof.Machine

/-! ## The stored cell -/

/-- A push leaves every cell but the one at the decremented SP (R81). -/
theorem State.pushByte_memRead_other (s : State) (v : State → Byte) {b : Byte} (h : b ≠ s.decSp.sp) :
    (s.pushByte v).memRead b = s.memRead b :=
  s.decSp.memWrite_memRead_other h _

/-- A cell that is neither the one a ST on registers stores to nor the one a PUSH or CALL pushes to is as it was (R30). -/
theorem exec_memRead {i : Instr} {s t : State} {addr : Byte} (h : exec i s = .next t)
    (hst : ∀ rA rB : Reg, i = .st rA.index rB.index → addr ≠ s.reg rA)
    (hpush : ∀ a : Byte, i = .push a ∨ i = .call a → addr ≠ s.decSp.sp) : t.memRead addr = s.memRead addr := by
  cases exec_eq_next_iff.mp h with
  | st rA rB => exact s.memWrite_memRead_other (hst rA rB rfl) _
  | push =>
    rw [State.updatePc_memRead]
    exact s.pushByte_memRead_other _ (hpush _ (.inl rfl))
  | call =>
    rw [State.updatePc_memRead]
    exact s.pushByte_memRead_other _ (hpush _ (.inr rfl))
  | _ => rfl

/-! ## Memories as data -/

/-- The cells a canonical memory lists are those that do not read as 0. -/
theorem Memory.mem_iff_read {m : Memory} (h : m.wf) {c : Host.Cell} :
    c ∈ m ↔ m.read c.1 = c.2 ∧ c.2 ≠ Memory.unlisted := by
  refine ⟨fun hc => ⟨Memory.read_of_mem h hc, (h.2 c hc).2⟩, fun ⟨hread, hne⟩ => ?_⟩
  have hmem := Memory.mem_of_read (hread ▸ hne)
  rwa [hread] at hmem

/-- A canonical memory reads as 0 beyond the last address (R29). -/
theorem Memory.read_of_memSize_le {m : Memory} (h : m.wf) {a : Nat} (ha : Config.memSize ≤ a) :
    m.read a = Memory.unlisted := by
  by_contra hne
  exact absurd (h.2 _ (Memory.mem_of_read hne)).1 (Nat.not_lt.mpr ha)

/-- Canonical memories that list the same cells are the same list: the addresses rise. -/
theorem Memory.eq_of_mem_iff {m k : Memory} (hm : m.wf) (hk : k.wf) (h : ∀ c, c ∈ m ↔ c ∈ k) : m = k :=
  have : Std.Asymm fun c d : Host.Cell => c.1 < d.1 := ⟨fun _ _ => Nat.lt_asymm⟩
  hm.1.eq_of_mem_iff hk.1 h

/-! ## A step that runs ST -/

theorem State.endCycle_of_cycle_eq_none {s : State} (h : s.cycle = none) : s.endCycle = s := by
  simp [State.endCycle, ← h]

/-- The step of a core that fetches ST, by the register operands latched (R75, R113). -/
theorem stepWith_st {m : OpcodeMap} {s : State} {rA rB : Reg} (hr : s.running = true) (hc : s.cycle = none)
    (hf : s.Fetches m (.st rA.index rB.index)) :
    stepWith m s = .next { s.memWrite (s.reg rA) (s.reg rB) with pc := s.pc + 3#8 } := by
  rw [stepWith_of_fetches hr hf, exec_st_index, State.updatePc_none _ (k := 3#8) rfl]
  exact congrArg Host.Outcome.next
    (State.endCycle_of_cycle_eq_none (s := { s.memWrite (s.reg rA) (s.reg rB) with pc := s.pc + 3#8 }) hc)

/-! ## The obligations -/

/-- Settles O27: no clause's address is the one cell the clause's instruction stores to. -/
theorem memoryIsUnchangedOutsideTheStoredCell : Obligations.MemoryIsUnchangedOutsideTheStoredCell := by
  intro i s t addr h
  refine ⟨fun a b hi ha => exec_memRead h (fun rA rB he => ?_) (by simp [hi]),
    fun a hi ha => exec_memRead h ?_ fun _ _ => ha, s.decSp_sp, fun hi => ?_⟩
  · obtain ⟨rfl, -⟩ : a = rA.index ∧ b = rB.index := by simpa [hi] using he
    exact ha rA rfl
  · rcases hi with rfl | rfl <;> simp
  · rcases hi with rfl | rfl | ⟨a, rfl | rfl | rfl | rfl | rfl⟩ | ⟨a, b, rfl | rfl | rfl | rfl⟩ <;>
      exact exec_memRead h (by simp) (by simp)

/-- Settles O31: memories that read alike below 256 read alike everywhere, so they list the same cells. -/
theorem memoriesThatReadAlikeAreEqual : Obligations.MemoriesThatReadAlikeAreEqual := by
  intro m k hm hk hread
  have hall : ∀ a, m.read a = k.read a := fun a => by
    rcases Nat.lt_or_ge a Config.memSize with ha | ha
    · exact hread a ha
    · rw [Memory.read_of_memSize_le hm ha, Memory.read_of_memSize_le hk ha]
  refine Memory.eq_of_mem_iff hm hk fun c => ?_
  rw [Memory.mem_iff_read hm, Memory.mem_iff_read hk, hall]

/-- Settles O32: the operands are latched before the store, and the next opcode fetch reads the memory after it. -/
theorem storeOverCodeIsSeenOnlyByLaterFetches : Obligations.StoreOverCodeIsSeenOnlyByLaterFetches := by
  intro s rA rB hr hc hf
  refine ⟨_, stepWith_st hr hc hf, rfl, s.memWrite_memRead _ _, fun hnext => ?_⟩
  calc (s.memWrite (s.reg rA) (s.reg rB)).memRead (s.pc + 3#8)
    _ = (s.memWrite (s.reg rA) (s.reg rB)).memRead (s.reg rA) := by rw [hnext]
    _ = s.reg rB := s.memWrite_memRead_same _ _

end Sys2Proof.Machine
end

section
/-! PROOFS of the family 30_encoding.md. The decoder as one equation: it answers the instruction of the opcode byte, its
declared operand bytes replaced by the two bytes given (R44, R46, R49); then the obligations. -/

namespace Sys2Proof

/-! ## The operand bytes of an instruction -/

/-- The instruction with the operand bytes its format declares (R46) replaced by those of `a` and `b`.
`decodeWith_opcode` ties it to the decoder. -/
def Instr.withOperands (a b : Byte) : Instr → Instr
  | .hlt => .hlt
  | .ldi _ _ => .ldi a b
  | .prn _ => .prn a
  | .add _ _ => .add a b
  | .mul _ _ => .mul a b
  | .push _ => .push a
  | .pop _ => .pop a
  | .call _ => .call a
  | .ret => .ret
  | .jmp _ => .jmp a
  | .cmp _ _ => .cmp a b
  | .jeq _ => .jeq a
  | .jne _ => .jne a
  | .st _ _ => .st a b

@[simp] theorem Instr.withOperands_opcode (m : OpcodeMap) (a b : Byte) (i : Instr) :
    (i.withOperands a b).opcode m = i.opcode m := by
  cases i <;> rfl

/-- The declared operand bytes are the first of A and B, as many as the format has (R46). -/
@[simp] theorem Instr.withOperands_operandBytes (a b : Byte) (i : Instr) :
    (i.withOperands a b).operandBytes = [a, b].take i.operandCount := by
  cases i <;> rfl

/-- With no operand, both bytes are ignored (R49). -/
theorem Instr.withOperands_of_operandCount_eq_zero {i : Instr} (h : i.operandCount = 0) (a b : Byte) :
    i.withOperands a b = i := by
  cases i with
  | hlt | ret => rfl
  | _ => cases h

/-- With one operand, B is ignored (R49). -/
theorem Instr.withOperands_of_operandCount_eq_one {i : Instr} (h : i.operandCount = 1) (a b b' : Byte) :
    i.withOperands a b' = i.withOperands a b := by
  cases i with
  | prn | push | pop | call | jmp | jeq | jne => rfl
  | _ => cases h

/-- An encoding is the first bytes of opcode, A and B, as many as the format has (R45, R46). -/
theorem encodeWith_withOperands (m : OpcodeMap) (a b : Byte) (i : Instr) :
    encodeWith m (i.withOperands a b) = [i.opcode m, a, b].take (1 + i.operandCount) := by
  simp [encodeWith, Nat.add_comm 1]

/-- The operand bytes that stand after the opcode byte in memory are the instruction's own, whatever follows them. -/
theorem Instr.withOperands_encodeWith (m : OpcodeMap) (i : Instr) (rest : List Byte) :
    i.withOperands ((encodeWith m i ++ rest).getD 1 0#8) ((encodeWith m i ++ rest).getD 2 0#8) = i := by
  cases i <;> rfl

/-! ## The decoder -/

/-- The tables for two pairs of operand bytes have the same opcode byte and the same kind of instruction in each row. -/
theorem OpcodeMap.rows_map_withOperands (m : OpcodeMap) (a b a' b' : Byte) :
    (m.rows a b).map (Prod.map id (Instr.withOperands a' b')) = m.rows a' b' := rfl

theorem OpcodeMap.mem_rows (m : OpcodeMap) (a b : Byte) (i : Instr) :
    (i.opcode m, i.withOperands a b) ∈ m.rows a b := by
  cases i <;> simp [Instr.opcode, Instr.withOperands, OpcodeMap.rows]

/-- The operand bytes have no part in which row is selected (R44); no hypothesis on the map. -/
theorem decodeWith_map_withOperands (m : OpcodeMap) (op a b a' b' : Byte) :
    (decodeWith m op a b).map (Instr.withOperands a' b') = decodeWith m op a' b' := by
  have hfind : (m.rows a' b').find? (fun row => row.1 == op) =
      ((m.rows a b).find? fun row => row.1 == op).map (Prod.map id (Instr.withOperands a' b')) := by
    rw [← m.rows_map_withOperands a b, List.find?_map]
    rfl
  unfold decodeWith
  rw [hfind]
  cases (m.rows a b).find? fun row => row.1 == op <;> rfl

/-- The operand bytes of what the decoder answers are the bytes it was given. -/
theorem withOperands_of_decodeWith {m : OpcodeMap} {op a b : Byte} {i : Instr} (h : decodeWith m op a b = .ok i) :
    i.withOperands a b = i := by
  have hi := decodeWith_map_withOperands m op a b a b
  rw [h] at hi
  exact Except.ok.inj hi

theorem decodeWith_of_decodeWith {m : OpcodeMap} {op a b : Byte} {i : Instr} (h : decodeWith m op a b = .ok i)
    (a' b' : Byte) : decodeWith m op a' b' = .ok (i.withOperands a' b') := by
  rw [← decodeWith_map_withOperands m op a b, h]
  rfl

/-- In the table of a well-formed map an opcode byte has one row (R44). -/
theorem OpcodeMap.wellFormed.rows_inj {m : OpcodeMap} (hm : m.wellFormed) {a b op : Byte} {i j : Instr}
    (hi : (op, i) ∈ m.rows a b) (hj : (op, j) ∈ m.rows a b) : i = j := by
  have hkeys : ((m.rows a b).map Prod.fst).Nodup := hm.1
  exact congrArg Prod.snd (List.inj_on_of_nodup_map hkeys hi hj rfl)

/-- Under a well-formed map an opcode byte selects its own instruction (R44, R46). -/
theorem decodeWith_opcode {m : OpcodeMap} (hm : m.wellFormed) (i : Instr) (a b : Byte) :
    decodeWith m (i.opcode m) a b = .ok (i.withOperands a b) := by
  cases hd : decodeWith m (i.opcode m) a b with
  | error e => exact absurd (i.opcode_mem m) (decodeWith_eq_error.mp hd).1
  | ok j => rw [hm.rows_inj (mem_rows_of_decodeWith hd) (m.mem_rows a b i)]

/-! ## The default map -/

theorem decode_opcode (i : Instr) (a b : Byte) :
    decode (i.opcode defaultOpcodeMap) a b = .ok (i.withOperands a b) :=
  decodeWith_opcode defaultOpcodeMap_wellFormed i a b

theorem encode_withOperands (i : Instr) (a b : Byte) :
    encode (i.withOperands a b) = [i.opcode defaultOpcodeMap, a, b].take (1 + i.operandCount) :=
  encodeWith_withOperands defaultOpcodeMap a b i

/-- Instructions of one operand count have it in bits [7:6] of their default opcode bytes (R43). -/
theorem operandCount_and_countField_of_mem {l : List Instr} (n : BitVec 2)
    (h : l.map Instr.operandCount = List.replicate l.length n.toNat) {i : Instr} (hi : i ∈ l) :
    i.operandCount = n.toNat ∧ countField (i.opcode defaultOpcodeMap) = n := by
  have hn : i.operandCount = n.toNat := List.map_eq_replicate_iff.mp h i hi
  exact ⟨hn, BitVec.eq_of_toNat_eq ((Instr.countField_opcode defaultOpcodeMap_wellFormed i).trans hn)⟩

end Sys2Proof

namespace Sys2Proof.Machine

/-! ## The obligations -/

/-- Settles O9: the opcode byte selects the instruction, and the bytes after it are its operand bytes. -/
theorem decodeOfEncodeIsInstruction : Obligations.DecodeOfEncodeIsInstruction := by
  intro m i rest hm
  refine (decodeWith_opcode hm i _ _).trans ?_
  rw [i.withOperands_encodeWith m rest]

/-- Settles O10: what is decoded has the opcode byte and the operand bytes that were given. -/
theorem encodeOfDecodeIsBytes : Obligations.EncodeOfDecodeIsBytes := by
  intro m op a b i hm h
  calc encodeWith m i
    _ = encodeWith m (i.withOperands a b) := by rw [withOperands_of_decodeWith h]
    _ = [i.opcode m, a, b].take (1 + i.operandCount) := encodeWith_withOperands m a b i
    _ = [op, a, b].take (1 + (countField op).toNat) := by
      rw [← Instr.countField_opcode hm i, opcode_of_decodeWith h]

/-- Settles O11: other operand bytes change only the operands the format declares. -/
theorem undeclaredOperandBytesAreIgnored : Obligations.UndeclaredOperandBytesAreIgnored := by
  intro m op a b a' b' i h
  refine ⟨fun h0 => ?_, fun h1 => ?_⟩
  · rw [decodeWith_of_decodeWith h, Instr.withOperands_of_operandCount_eq_zero h0]
  · rw [decodeWith_of_decodeWith h, Instr.withOperands_of_operandCount_eq_one h1 a b, withOperands_of_decodeWith h]

/-- Settles O7, row by row from the equations of the decoder and the encoder at the default map. -/
theorem opcodeTableRowsDecode : Obligations.OpcodeTableRowsDecode := by
  intro a b
  refine ⟨?decodes, ?encodes, fun _ => operandCount_and_countField_of_mem 0#2 rfl,
    fun _ => operandCount_and_countField_of_mem 1#2 rfl, fun _ => operandCount_and_countField_of_mem 2#2 rfl⟩
  case decodes =>
    exact ⟨decode_opcode .hlt a b, decode_opcode (.ldi a b) a b, decode_opcode (.prn a) a b,
      decode_opcode (.add a b) a b, decode_opcode (.mul a b) a b, decode_opcode (.push a) a b,
      decode_opcode (.pop a) a b, decode_opcode (.call a) a b, decode_opcode .ret a b,
      decode_opcode (.jmp a) a b, decode_opcode (.cmp a b) a b, decode_opcode (.jeq a) a b,
      decode_opcode (.jne a) a b, decode_opcode (.st a b) a b⟩
  case encodes =>
    exact ⟨encode_withOperands .hlt a b, encode_withOperands (.ldi a b) a b, encode_withOperands (.prn a) a b,
      encode_withOperands (.add a b) a b, encode_withOperands (.mul a b) a b, encode_withOperands (.push a) a b,
      encode_withOperands (.pop a) a b, encode_withOperands (.call a) a b, encode_withOperands .ret a b,
      encode_withOperands (.jmp a) a b, encode_withOperands (.cmp a b) a b, encode_withOperands (.jeq a) a b,
      encode_withOperands (.jne a) a b, encode_withOperands (.st a b) a b⟩

/-- Settles O8: each binary word's first byte is the opcode byte of its instruction at the default map. -/
theorem wordsWrittenOutDecode : Obligations.WordsWrittenOutDecode :=
  ⟨decode_opcode (.ldi 0#8 8#8) 0#8 8#8, decode_opcode (.ldi 1#8 9#8) 1#8 9#8, decode_opcode (.add 0#8 1#8) 0#8 1#8,
    decode_opcode (.prn 0#8) 0#8 1#8, decode_opcode .hlt 0#8 0#8, decode_opcode (.push 3#8) 3#8 0#8,
    decode_opcode (.jne 2#8) 2#8 0#8, decode_opcode (.st 2#8 3#8) 2#8 3#8⟩

end Sys2Proof.Machine
end

section
/-! PROOFS of the family 40_execution_cycle.md. First what a cycle fetches, how it ends in a fault, and the status and PC
frame of an instruction; then the obligations. -/

namespace Sys2Proof.Machine

/-! ## What a running core fetches -/

/-- The core fetches an instruction exactly when the byte at `pc` is one of the map (R59). -/
theorem State.exists_fetches_iff {m : OpcodeMap} {s : State} : (∃ i, s.Fetches m i) ↔ s.memRead s.pc ∈ m.bytes := by
  constructor
  · rintro ⟨i, hi⟩
    exact opcode_of_decodeWith hi ▸ i.opcode_mem m
  · intro hop
    cases hd : decodeWith m (s.memRead s.pc) (s.memRead (s.pc + 1#8)) (s.memRead (s.pc + 2#8)) with
    | ok i => exact ⟨i, hd⟩
    | error e => exact absurd hop (decodeWith_eq_error.mp hd).1

/-- Placed bytes are read back at `pc`, `pc + 1` and `pc + 2`: the three addresses differ modulo 256 (R33). -/
theorem State.placeAtPc_memRead (s : State) (op a b : Byte) :
    (s.placeAtPc op a b).memRead s.pc = op ∧ (s.placeAtPc op a b).memRead (s.pc + 1#8) = a ∧
      (s.placeAtPc op a b).memRead (s.pc + 2#8) = b := by
  have h01 : s.pc ≠ s.pc + 1#8 := by bv_omega
  have h02 : s.pc ≠ s.pc + 2#8 := by bv_omega
  have h12 : s.pc + 1#8 ≠ s.pc + 2#8 := by bv_omega
  refine ⟨?_, ?_, State.memWrite_memRead_same _ _ _⟩
  · exact (State.memWrite_memRead_other _ h02 _).trans <|
      (State.memWrite_memRead_other _ h01 _).trans (s.memWrite_memRead_same _ _)
  · exact (State.memWrite_memRead_other _ h12 _).trans (State.memWrite_memRead_same _ _ _)

/-- Placing bytes leaves every other cell (R34). -/
theorem State.placeAtPc_memRead_other (s : State) (op a b : Byte) {addr : Byte} (h0 : addr ≠ s.pc)
    (h1 : addr ≠ s.pc + 1#8) (h2 : addr ≠ s.pc + 2#8) : (s.placeAtPc op a b).memRead addr = s.memRead addr :=
  (State.memWrite_memRead_other _ h2 _).trans <|
    (State.memWrite_memRead_other _ h1 _).trans (s.memWrite_memRead_other h0 _)

theorem decode_of_decodeTableWord {nbits w : Nat} {i : Instr} (h : decodeTableWord nbits w = some i) :
    decode (tableByte nbits w 0) (tableByte nbits w 1) (tableByte nbits w 2) = .ok i := by
  unfold decodeTableWord at h
  split at h
  · next j hj => exact Option.some.inj h ▸ hj
  · cases h

/-! ## A cycle that ends in a fault -/

/-- A fault within a cycle leaves the state R97 lists, with the opcode byte the cycle fetched. -/
theorem State.raiseFault_of_beginCycle {s : State} (hc : s.cycle = none) (c : Cause) :
    (s.beginCycle.raiseFault c).endCycle = s.faultedWith c (s.memRead s.pc) := by
  rw [s.beginCycle.raiseFault_of_cycle rfl]
  exact State.endCycle_of_cycle_eq_none (s := s.faultedWith c (s.memRead s.pc)) hc

/-- The step of a running core whose byte at `pc` is not in the map (R59). -/
theorem stepWith_of_not_mem_bytes {m : OpcodeMap} {s : State} (hr : s.running = true) (hc : s.cycle = none)
    (hop : s.memRead s.pc ∉ m.bytes) :
    stepWith m s = .next (s.faultedWith .invalidOpcode (s.memRead s.pc)) := by
  have hd : decodeWith m s.fetch.op s.fetch.a s.fetch.b = .error (.invalidOpcode (s.memRead s.pc)) :=
    decodeWith_eq_error.mpr ⟨hop, rfl⟩
  simp [stepWith, runCycle, hr, hd, State.raiseFault_of_beginCycle hc]

/-! ## A cycle that runs an instruction -/

/-- The step of a running core is the fetched instruction's effect within the cycle, with the latch discarded (R61, R64). -/
theorem stepWith_of_executes {m : OpcodeMap} {s u : State} {i : Instr} (hr : s.running = true) (hf : s.Fetches m i)
    (hu : Executes s.beginCycle i u) : stepWith m s = .next u.endCycle := by
  rw [stepWith_of_fetches hr hf, hu.exec_eq, endResult_next]

/-! ## The status and the PC after an instruction -/

section
variable {i : Instr} {s t : State}

/-- An instruction keeps the fault record, or does nothing but raise REG_INDEX_RANGE (R63). -/
theorem exec_fault_cases (h : exec i s = .next t) : t.fault = s.fault ∨ t = s.raiseFault .regIndexRange := by
  cases exec_eq_next_iff.mp h with
  | outOfRange => exact .inr rfl
  | _ => exact .inl rfl

/-- No instruction changes the latch (R25). -/
theorem exec_cycle (h : exec i s = .next t) : t.cycle = s.cycle := by
  cases exec_eq_next_iff.mp h <;> rfl

/-- With register operands in range no instruction writes the fault record (R60). -/
theorem exec_fault (h : exec i s = .next t) (hi : i.wellFormed = true) : t.fault = s.fault := by
  cases exec_eq_next_iff.mp h with
  | outOfRange hw => cases hi.symm.trans hw
  | _ => rfl

/-- With register operands in range only HLT writes `running` (R69). -/
theorem exec_running (h : exec i s = .next t) (hi : i.wellFormed = true) (hh : i ≠ .hlt) :
    t.running = s.running := by
  cases exec_eq_next_iff.mp h with
  | outOfRange hw => cases hi.symm.trans hw
  | hlt => exact absurd rfl hh
  | _ => rfl

/-- An instruction that returns no target advances `pc` by its length (R62, R66). -/
theorem exec_pc (h : exec i s = .next t) (hi : i.wellFormed = true)
    (hj : ∀ a, i ≠ .call a ∧ i ≠ .jmp a ∧ i ≠ .jeq a ∧ i ≠ .jne a) (hret : i ≠ .ret) :
    t.pc = u8 (s.pc.toNat + 1 + i.operandCount) := by
  cases exec_eq_next_iff.mp h with
  | outOfRange hw => cases hi.symm.trans hw
  | call rA | jmp rA | jeq rA | jne rA => simpa using hj rA.index
  | ret => exact absurd rfl hret
  | _ => rfl

end

/-- The operand count of a fetched instruction is in bits [7:6] of the byte at `pc` (R43, R57). -/
theorem State.Fetches.countField_eq {m : OpcodeMap} {s : State} {i : Instr} (hf : s.Fetches m i)
    (hm : m.wellFormed) : (countField (s.memRead s.pc)).toNat = i.operandCount := by
  rw [← opcode_of_decodeWith hf, Instr.countField_opcode hm]

/-- The conditional jumps test for EQUAL (R89). -/
theorem Flag.isEqual_iff {f : Flag} : f.isEqual = true ↔ f = .equal := by
  cases f <;> decide

/-- A core that has stopped has a run of any length, and is in its state after it (R54, R106). -/
theorem run_eq_next_of_stopped {s : State} (hr : s.running = false) (n : Nat) :
    Host.Core.run core n s = .next s := by
  induction n with
  | zero => rfl
  | succ n ih => exact (run_succ_of_next (stepWith_of_stopped hr _) n).trans ih

/-! ## The obligations -/

/-- Settles O12: the three bytes the step reads are those the number was decoded from. -/
theorem tableWordPlacedAtPcIsFetchedNext : Obligations.TableWordPlacedAtPcIsFetchedNext := by
  intro s nbits w i h
  obtain ⟨hop, ha, hb⟩ :=
    s.placeAtPc_memRead (tableByte nbits w 0) (tableByte nbits w 1) (tableByte nbits w 2)
  refine ⟨?_, fun _ => s.placeAtPc_memRead_other _ _ _, rfl⟩
  calc decodeWith defaultOpcodeMap ((s.withFetchWord nbits w).memRead s.pc)
        ((s.withFetchWord nbits w).memRead (s.pc + 1#8)) ((s.withFetchWord nbits w).memRead (s.pc + 2#8))
    _ = decode (tableByte nbits w 0) (tableByte nbits w 1) (tableByte nbits w 2) := by
      rw [State.withFetchWord, hop, ha, hb, decode]
    _ = .ok i := decode_of_decodeTableWord h

/-- Settles O14: a step holds the state, so every run does. -/
theorem stoppedCoreStaysInItsState : Obligations.StoppedCoreStaysInItsState :=
  fun _ n hr => ⟨stepWith_of_stopped hr _, run_eq_next_of_stopped hr n, rfl⟩

/-- Settles O15: by whether the core runs, and whether the byte at `pc` is in the map. -/
theorem everyStepCompletesOrFaultsPrecisely : Obligations.EveryStepCompletesOrFaultsPrecisely := by
  intro m s hc
  cases hr : s.running with
  | false => exact ⟨s, stepWith_of_stopped hr m, .inl rfl⟩
  | true =>
    by_cases hop : s.memRead s.pc ∈ m.bytes
    · obtain ⟨i, hi⟩ := State.exists_fetches_iff.mpr hop
      obtain ⟨u, hu⟩ := exists_executes i s.beginCycle
      refine ⟨u.endCycle, stepWith_of_executes hr hi hu, ?_⟩
      rcases exec_fault_cases hu.exec_eq with hf | rfl
      · exact .inl hf
      · exact .inr ⟨_, State.raiseFault_of_beginCycle hc _⟩
    · exact ⟨_, stepWith_of_not_mem_bytes hr hc hop, .inr ⟨_, rfl⟩⟩

/-- Settles O16: the two clauses are the step on a byte outside the map, and what the decoder accepts. -/
theorem byteOutsideOpcodeMapFaults : Obligations.ByteOutsideOpcodeMapFaults :=
  fun _ _ hr hc => ⟨stepWith_of_not_mem_bytes hr hc, State.exists_fetches_iff.mpr⟩

/-- Settles O28, from the frame of each piece of the status. -/
theorem statusAndOutputAreUnchangedButByHaltAndPrint : Obligations.StatusAndOutputAreUnchangedButByHaltAndPrint :=
  fun _ _ _ hi h => ⟨exec_fault h hi, exec_cycle h, exec_running h hi, fun hp => exec_out h fun r => hp r.index⟩

/-- Settles O29: the format's operand count, by which `pc` advances, is the field of the byte fetched. -/
theorem pcAdvancesByInstructionLength : Obligations.PcAdvancesByInstructionLength := by
  intro m s i hm hr hf hi hj hret
  obtain ⟨u, hu⟩ := exists_executes i s.beginCycle
  refine ⟨u.endCycle, stepWith_of_executes hr hf hu, ?_⟩
  rw [hf.countField_eq hm, State.endCycle_pc, exec_pc hu.exec_eq hi hj hret]
  exact BitVec.toNat_ofNat _ _

/-- Settles O13: the state with the fetched bytes latched is the start of the cycle. -/
theorem stepRunsTheDecodedInstruction : Obligations.StepRunsTheDecodedInstruction := by
  intro s i hr hf _
  obtain ⟨t, ht⟩ := exists_executes i s.beginCycle
  exact ⟨t, ht.exec_eq, stepWith_of_executes hr hf ht⟩

/-- Settles O30: each instruction's target is the byte that is said to be 0. -/
theorem targetZeroIsTaken : Obligations.TargetZeroIsTaken := by
  intro r s
  refine ⟨fun h0 => ?jmp, fun h0 hfl => ?jeq, fun h0 hfl => ?jne, fun h0 => ?call, fun h0 => ?ret⟩
  case jmp =>
    rw [exec_jmp_index, h0]
    rfl
  case jeq =>
    rw [exec_jeq_index, if_pos (Flag.isEqual_iff.mpr hfl), h0]
    rfl
  case jne =>
    rw [exec_jne_index, if_neg (mt Flag.isEqual_iff.mp hfl), h0]
    rfl
  case call => exact ⟨_, exec_call_index s r, h0⟩
  case ret => exact ⟨_, exec_ret s, h0⟩

end Sys2Proof.Machine
end

section
/-! PROOFS of the family 41_system_io.md. First the step of HLT and a register operand out of range within a cycle; then
the obligations. -/

namespace Sys2Proof.Machine

/-- The effect of HLT written out (R69, R66). -/
theorem exec_hlt_fields (s : State) : exec .hlt s = .next { s with running := false, pc := s.pc + 1#8 } := by
  rw [exec_hlt, State.updatePc_none _ (k := 1#8) rfl]
  rfl

/-- The step of a running core that fetches HLT: the cycle's latch is discarded, and only the effect of HLT stays (R64). -/
theorem stepWith_hlt {m : OpcodeMap} {s : State} (hr : s.running = true) (hc : s.cycle = none)
    (hf : s.Fetches m .hlt) : stepWith m s = .next { s with running := false, pc := s.pc + 1#8 } := by
  rw [stepWith_of_fetches hr hf, exec_hlt_fields, endResult_next]
  exact congrArg Host.Outcome.next
    (State.endCycle_of_cycle_eq_none (s := { s with running := false, pc := s.pc + 1#8 }) hc)

/-- Within a cycle, an instruction with a register operand out of range is the fault REG_INDEX_RANGE with the latched
opcode byte, and nothing else (R60, R97). -/
theorem exec_ill_formed_in_cycle {i : Instr} {s : State} {l : Latch} (hc : s.cycle = some l)
    (hi : i.wellFormed = false) : exec i s = .next (s.faultedWith .regIndexRange l.op) := by
  rw [exec_ill_formed s hi, s.raiseFault_of_cycle hc]
  rfl

/-! ## The obligations -/

/-- Settles O33: the first step runs HLT, and the core it stops holds its state for the steps that are left. -/
theorem haltEndsTheRun : Obligations.HaltEndsTheRun := by
  refine ⟨exec_hlt_fields, fun s n hr hc hf => ?_⟩
  rw [run_succ_of_next (stepWith_hlt hr hc hf)]
  exact run_eq_next_of_stopped rfl n

/-- Settles O34: the first clause is the PC update after the emission, the second the check of the operand byte. -/
theorem printEmitsRegister : Obligations.PrintEmitsRegister := by
  refine ⟨fun r s => ?_, fun a s l hc ha => exec_ill_formed_in_cycle hc ?_⟩
  · rw [exec_prn_index, State.updatePc_none _ (k := 2#8) rfl]
    rfl
  · simpa [Instr.wellFormed, Instr.regOperands] using ha

end Sys2Proof.Machine
end

section
/-! PROOFS of the family 42_load_store.md. First the effects of LDI and ST written out field by field, and the check of
one declared register operand within a cycle; then the obligations. -/

namespace Sys2Proof.Machine

/-- The effect of LDI with the PC update written out (R73, R62). -/
theorem exec_ldi_fields (s : State) (r : Reg) (imm : Byte) :
    exec (.ldi r.index imm) s = .next { s.setReg r imm with pc := s.pc + 3#8 } := by
  rw [exec_ldi_index, State.updatePc_none _ (k := 3#8) rfl, State.setReg_pc]

/-- The effect of ST with the PC update written out (R75, R62). -/
theorem exec_st_fields (s : State) (rA rB : Reg) :
    exec (.st rA.index rB.index) s = .next { s.memWrite (s.reg rA) (s.reg rB) with pc := s.pc + 3#8 } := by
  rw [exec_st_index, State.updatePc_none _ (k := 3#8) rfl, State.memWrite_pc]

/-- One declared register operand over 7 is enough for an instruction within a cycle to be the fault REG_INDEX_RANGE,
whatever its other operand is (R60, R96). -/
theorem exec_operand_out_of_range_in_cycle {i : Instr} {p : Byte} {s : State} {l : Latch} (hc : s.cycle = some l)
    (hp : p ∈ i.regOperands) (hrange : 7 < p.toNat) : exec i s = .next (s.faultedWith .regIndexRange l.op) := by
  refine exec_ill_formed_in_cycle hc ?_
  simpa [Instr.wellFormed] using ⟨p, hp, hrange⟩

/-! ## The obligations -/

/-- Settles O35: the rules of a register write give what the register and the others read; A is the one operand checked
(R48). -/
theorem loadImmediateWritesLiteral : Obligations.LoadImmediateWritesLiteral := by
  refine ⟨fun r imm s => ?effect, fun a imm s l hc ha => ?fault, fun a imm => ?encoding⟩
  case effect =>
    exact ⟨_, exec_ldi_fields s r imm, s.setReg_reg_same r imm, fun _ hq => s.setReg_reg_other hq imm, rfl⟩
  case fault => exact exec_operand_out_of_range_in_cycle hc (List.mem_singleton_self a) ha
  case encoding => exact encode_withOperands (.ldi a imm) a imm

/-- Settles O36: the rules of a memory write give what the cell and the others read; A and B are both checked. -/
theorem storeWritesCell : Obligations.StoreWritesCell := by
  refine ⟨fun rA rB s => ?effect, fun a b s l hc hab => ?fault, fun a b => ?encoding⟩
  case effect =>
    exact ⟨_, exec_st_fields s rA rB, s.memWrite_memRead_same _ _, fun _ ha => s.memWrite_memRead_other ha _, rfl⟩
  case fault =>
    rcases hab with ha | hb
    · exact exec_operand_out_of_range_in_cycle hc (List.mem_pair.mpr (.inl rfl)) ha
    · exact exec_operand_out_of_range_in_cycle hc (List.mem_pair.mpr (.inr rfl)) hb
  case encoding => exact encode_withOperands (.st a b) a b

end Sys2Proof.Machine
end

section
/-! PROOFS of the family 43_alu.md. First what the ALU computes, the effects of ADD, MUL and CMP written out field by
field, the faults of an ALU request within a cycle, and the fault records a step can write; then the obligations. -/

namespace Sys2Proof.Machine

/-! ## What the ALU computes (R76) -/

theorem aluAdd_toNat (x y : Byte) : (aluAdd x y).toNat = (x.toNat + y.toNat) % 256 := BitVec.toNat_ofNat _ _

theorem aluMul_toNat (x y : Byte) : (aluMul x y).toNat = (x.toNat * y.toNat) % 256 := BitVec.toNat_ofNat _ _

theorem aluCompare_of_lt {x y : Byte} (h : x.toNat < y.toNat) : aluCompare x y = .less := if_pos h

theorem aluCompare_of_gt {x y : Byte} (h : y.toNat < x.toNat) : aluCompare x y = .greater :=
  (if_neg h.asymm).trans (if_pos h)

theorem aluCompare_self (x : Byte) : aluCompare x x = .equal := by simp [aluCompare]

/-- The flag is the unsigned order of the two values, each way round (R79). -/
theorem aluCompare_eq_iff (x y : Byte) :
    (aluCompare x y = .less ↔ x.toNat < y.toNat) ∧ (aluCompare x y = .greater ↔ y.toNat < x.toNat) ∧
      (aluCompare x y = .equal ↔ x = y) := by
  rcases lt_trichotomy x.toNat y.toNat with h | h | h
  · have hne : x ≠ y := fun e => h.ne (congrArg BitVec.toNat e)
    simp [aluCompare_of_lt h, h, h.le, hne]
  · obtain rfl := BitVec.eq_of_toNat_eq h
    simp [aluCompare_self]
  · have hne : x ≠ y := fun e => h.ne' (congrArg BitVec.toNat e)
    simp [aluCompare_of_gt h, h, h.le, hne]

/-! ## The effects of ADD, MUL and CMP -/

section
variable (s : State) (rA rB : Reg)

/-- The effect of ADD with the PC update written out (R77, R62). -/
theorem exec_add_fields : exec (.add rA.index rB.index) s =
    .next { s.setReg rA (aluAdd (s.reg rA) (s.reg rB)) with pc := s.pc + 3#8 } := by
  rw [exec_add_index, State.updatePc_none _ (k := 3#8) rfl, State.setReg_pc]

/-- The effect of MUL with the PC update written out (R78, R62). -/
theorem exec_mul_fields : exec (.mul rA.index rB.index) s =
    .next { s.setReg rA (aluMul (s.reg rA) (s.reg rB)) with pc := s.pc + 3#8 } := by
  rw [exec_mul_index, State.updatePc_none _ (k := 3#8) rfl, State.setReg_pc]

/-- The effect of CMP written out (R79, R62). -/
theorem exec_cmp_fields : exec (.cmp rA.index rB.index) s =
    .next { s with fl := aluCompare (s.reg rA) (s.reg rB), pc := s.pc + 3#8 } := by
  rw [exec_cmp_index, State.updatePc_none _ (k := 3#8) rfl]
  rfl

end

/-- After a register write and the PC update, A reads as the value, and every other register and all else is as before
(R12, R62). -/
theorem exists_next_of_setReg {res : Result} {s : State} {rA : Reg} {v pc : Byte} {n : Nat}
    (h : res = .next { s.setReg rA v with pc := pc }) (hv : v.toNat = n) :
    ∃ t : State, res = .next t ∧ (t.reg rA).toNat = n ∧ (∀ q : Reg, q ≠ rA → t.reg q = s.reg q) ∧
      t = { s with regs := t.regs, pc := pc } :=
  ⟨_, h, (congrArg BitVec.toNat (s.setReg_reg_same rA v)).trans hv, fun _ hq => s.setReg_reg_other hq v, rfl⟩

/-! ## Faults -/

/-- Within a cycle, fault entry leaves the state R97 lists, with the latched opcode byte. -/
theorem State.raiseFault_eq_faultedWith {s : State} {l : Latch} (hc : s.cycle = some l) (c : Cause) :
    s.raiseFault c = s.faultedWith c l.op :=
  s.raiseFault_of_cycle hc c

/-- An instruction that declares two register operands checks both: either over 7, within a cycle, is the fault
REG_INDEX_RANGE (R60, R96). -/
theorem exec_operands_out_of_range_in_cycle {i : Instr} {a b : Byte} {s : State} {l : Latch} (hc : s.cycle = some l)
    (hi : i.regOperands = [a, b]) (hab : 7 < a.toNat ∨ 7 < b.toNat) :
    exec i s = .next (s.faultedWith .regIndexRange l.op) := by
  rcases hab with ha | hb
  · exact exec_operand_out_of_range_in_cycle hc (by simp [hi]) ha
  · exact exec_operand_out_of_range_in_cycle hc (by simp [hi]) hb

/-- An ALU request on registers is the ALU's answer to their values. -/
theorem execAluOp_index (op : AluOp) (rA rB : Reg) (s : State) :
    execAluOp op rA.index rB.index s = finishAlu rA (alu op (s.reg rA) (s.reg rB)) s :=
  withRegs_index rA rB s _

/-- The register check comes before the operation, whatever the operation is (R99). -/
theorem execAluOp_range (op : AluOp) {a b : Byte} (h : 7 < a.toNat ∨ 7 < b.toNat) (s : State) :
    execAluOp op a b s = .next (s.raiseFault .regIndexRange) :=
  withRegs_range h s _

/-- The ALU has no answer to another operation, and nothing else happens (R80, R98). -/
theorem execAluOp_other_index (tag : Nat) (rA rB : Reg) (s : State) :
    execAluOp (.other tag) rA.index rB.index s = .next (s.raiseFault .unsupportedAluOp) := 
  execAluOp_index (.other tag) rA rB s

/-- A step keeps the fault record, or writes the byte at `pc` with the cause INVALID_OPCODE or REG_INDEX_RANGE (R95, R96,
R98). -/
theorem stepWith_fault_cases {m : OpcodeMap} {s t : State} (h : stepWith m s = .next t) :
    t.fault = s.fault ∨ ∃ c, (c = .invalidOpcode ∨ c = .regIndexRange) ∧ t.fault = some ⟨c, s.pc, s.memRead s.pc⟩ := by
  rcases stepWith_cases h with ⟨-, rfl⟩ | ⟨-, -, rfl⟩ | ⟨-, i, u, -, hu, rfl⟩
  · exact .inl rfl
  · exact .inr ⟨.invalidOpcode, .inl rfl, rfl⟩
  · rcases exec_fault_cases hu with hf | rfl
    · exact .inl hf
    · exact .inr ⟨.regIndexRange, .inr rfl, rfl⟩

/-! ## The obligations -/

/-- Settles O20: the record a step writes has one of the two causes that `stepWith_fault_cases` names. -/
theorem noStepRaisesUnsupportedAluOp : Obligations.NoStepRaisesUnsupportedAluOp := by
  intro m s t f h hf hne
  obtain ⟨c, hc, hrec⟩ := (stepWith_fault_cases h).resolve_left hne
  obtain rfl := Option.some.inj (hf.symm.trans hrec)
  exact hc

/-- Settles O37: ADD is one register write, of the value of `aluAdd_toNat`. -/
theorem addWritesSumModulo256 : Obligations.AddWritesSumModulo256 := by
  refine ⟨fun rA rB s => ?effect, fun a b s l hc hab => ?fault, fun a b => ?encoding⟩
  case effect => exact exists_next_of_setReg (exec_add_fields s rA rB) (aluAdd_toNat _ _)
  case fault => exact exec_operands_out_of_range_in_cycle hc rfl hab
  case encoding => exact encode_withOperands (.add a b) a b

/-- Settles O38: MUL is one register write, of the value of `aluMul_toNat`. -/
theorem multiplyWritesProductModulo256 : Obligations.MultiplyWritesProductModulo256 := by
  refine ⟨fun rA rB s => ?effect, fun a b s l hc hab => ?fault, fun a b => ?encoding⟩
  case effect => exact exists_next_of_setReg (exec_mul_fields s rA rB) (aluMul_toNat _ _)
  case fault => exact exec_operands_out_of_range_in_cycle hc rfl hab
  case encoding => exact encode_withOperands (.mul a b) a b

/-- Settles O39: the flag CMP leaves is the ALU's, which is the order of the two values and never NONE. -/
theorem compareSetsFlagByUnsignedOrder : Obligations.CompareSetsFlagByUnsignedOrder := by
  refine ⟨fun rA rB s => ?effect, fun a b s l hc hab => exec_operands_out_of_range_in_cycle hc rfl hab⟩
  case effect =>
    obtain ⟨hless, hgreater, hequal⟩ := aluCompare_eq_iff (s.reg rA) (s.reg rB)
    exact ⟨_, exec_cmp_fields s rA rB, hless, hgreater, hequal, aluCompare_ne_none _ _⟩

/-- Settles O19: the ALU request is either stopped by the register check, or left without an answer. -/
theorem unsupportedAluRequestFaults : Obligations.UnsupportedAluRequestFaults := by
  refine ⟨rfl, fun tag rA rB s l hc => ?unsupported, fun tag a b s l hc hab => ?outOfRange⟩
  case unsupported => rw [execAluOp_other_index, State.raiseFault_eq_faultedWith hc]
  case outOfRange => rw [execAluOp_range _ hab, State.raiseFault_eq_faultedWith hc]

end Sys2Proof.Machine
end

section
/-! PROOFS of the family 44_stack.md. First the register that PUSH reads and the cell it writes, the effects of PUSH and
POP written out, and what a POP finds after a PUSH; then the obligations. -/

namespace Sys2Proof.Machine

/-- A register read after the decrement of SP: R6 is one less, the others are as they were (R81, D6). -/
theorem State.decSp_reg (s : State) (r : Reg) :
    s.decSp.reg r = if r = .r6 then s.reg .r6 - 1#8 else s.reg r := by
  split
  case isTrue h => rw [h, ← State.sp_eq, State.decSp_sp, State.sp_eq]
  case isFalse h => exact s.decSp_reg_other h

/-- The cell at the decremented SP holds the byte pushed (R81). -/
theorem State.pushByte_memRead_top (s : State) (v : State → Byte) :
    (s.pushByte v).memRead (s.sp - 1#8) = v s.decSp := by
  rw [s.pushByte_memRead, if_pos rfl]

/-- The effect of PUSH with the PC update written out (R82, R62). -/
theorem exec_push_fields (s : State) (r : Reg) :
    exec (.push r.index) s = .next { s.pushByte (fun t => t.reg r) with pc := s.pc + 2#8 } := by
  rw [exec_push_index, State.updatePc_none _ (k := 2#8) rfl, State.pushByte_pc]

/-- The effect of POP with the PC update written out (R83, R62). -/
theorem exec_pop_fields (s : State) (r : Reg) :
    exec (.pop r.index) s = .next { (s.setReg r (s.memRead s.sp)).incSp with pc := s.pc + 2#8 } := by
  rw [exec_pop_index, State.updatePc_none _ (k := 2#8) rfl, State.incSp_pc, State.setReg_pc]

/-! ## The obligations: one instruction -/

/-- Settles O41: the registers are those after the decrement, the cells those after one write at the new SP. -/
theorem pushWritesBelowStackTop : Obligations.PushWritesBelowStackTop := by
  refine ⟨fun r s => ?effect, fun a s l hc ha => ?fault, fun a => ?encoding⟩
  case effect =>
    refine ⟨_, exec_push_fields s r, s.decSp_sp, fun _ hq => s.decSp_reg_other hq, ?top, fun a ha => ?cells, rfl⟩
    case top => exact (s.pushByte_memRead_top fun t => t.reg r).trans (s.decSp_reg r)
    case cells => exact s.pushByte_memRead_other (fun t => t.reg r) (s.decSp_sp ▸ ha)
  case fault => exact exec_operand_out_of_range_in_cycle hc (List.mem_singleton_self a) ha
  case encoding => exact encode_withOperands (.push a) a 0#8

/-- Settles O42: SP is incremented after the write of A, so it keeps the loaded byte only as what it adds 1 to. -/
theorem popLoadsStackTop : Obligations.PopLoadsStackTop := by
  refine ⟨fun r s => ⟨_, exec_pop_fields s r, fun hr => ⟨?loaded, ?sp⟩, fun hr => ?popSp, fun q hq hSp => ?other, rfl⟩,
    fun a s l hc ha => ?fault⟩
  case loaded => exact (State.incSp_reg_other _ hr).trans (s.setReg_reg_same r _)
  case sp => exact (State.incSp_sp _).trans (congrArg (· + 1#8) (s.setReg_reg_other hr.symm _))
  case popSp =>
    subst hr
    exact (State.incSp_sp _).trans (congrArg (· + 1#8) (s.setReg_reg_same .r6 _))
  case other => exact (State.incSp_reg_other _ hSp).trans (s.setReg_reg_other hq _)
  case fault => exact exec_operand_out_of_range_in_cycle hc (List.mem_singleton_self a) ha

/-! ## A POP after a PUSH -/

/-- A POP of any register after a PUSH finds SP at the cell the PUSH wrote: it loads the byte pushed, and its increment
undoes the decrement modulo 256 (R33, C7). -/
theorem exists_push_then_pop (r q : Reg) (s : State) :
    ∃ t u : State, exec (.push r.index) s = .next t ∧ exec (.pop q.index) t = .next u ∧
      (q ≠ .r6 → u.reg q = s.decSp.reg r ∧ u.reg .r6 = s.reg .r6) ∧
      (q = .r6 → u.reg .r6 = s.decSp.reg r + 1#8) ∧
      (∀ p : Reg, p ≠ q → p ≠ .r6 → u.reg p = s.reg p) ∧
      (∀ a : Byte, a ≠ s.reg .r6 - 1#8 → u.memRead a = s.memRead a) := by
  obtain ⟨t, ht, htSp, htReg, htTop, htMem, -⟩ := pushWritesBelowStackTop.1 r s
  obtain ⟨u, hu, huOther, huSp, huReg, hut⟩ := popLoadsStackTop.1 q t
  rw [htSp, htTop, ← s.decSp_reg r] at huOther huSp
  rw [BitVec.sub_add_cancel] at huOther
  refine ⟨t, u, ht, hu, huOther, huSp, fun p hp hSp => ?registers, fun a ha => ?cells⟩
  case registers => exact (huReg p hp hSp).trans (htReg p hSp)
  case cells =>
    have hua : u.memRead a = t.memRead a := by rw [hut]; rfl
    exact hua.trans (htMem a ha)

/-! ## The obligations: PUSH and then POP -/

/-- Settles O43, for R6 because POP's increment is of the decremented SP that was pushed. -/
theorem pushThenPopRestoresRegisters : Obligations.PushThenPopRestoresRegisters := by
  intro r s
  obtain ⟨t, u, ht, hu, hother, hr6, hreg, hmem⟩ := exists_push_then_pop r r s
  have hSp : u.reg .r6 = s.reg .r6 := by
    by_cases hr : r = .r6
    · rw [hr6 hr, s.decSp_reg, if_pos hr, BitVec.sub_add_cancel]
    · exact (hother hr).2
  refine ⟨t, u, ht, hu, fun q => ?_, hmem⟩
  by_cases hq : q = .r6
  · rw [hq, hSp]
  · by_cases hqr : q = r
    · subst hqr
      exact (hother hq).1.trans (s.decSp_reg_other hq)
    · exact hreg q hqr hq

/-- Settles O44: the byte pushed is what PUSH read, and a POP of R6 after PUSH r means that r is another register. -/
theorem pushThenPopMovesValue : Obligations.PushThenPopMovesValue := by
  intro r q s hqr
  obtain ⟨t, u, ht, hu, hother, hr6, hreg, -⟩ := exists_push_then_pop r q s
  refine ⟨t, u, ht, hu, s.decSp_reg r ▸ hother, fun hq => ?_, hreg⟩
  rw [hr6 hq, s.decSp_reg_other (hq ▸ hqr.symm)]

end Sys2Proof.Machine
end

section
/-! PROOFS of the family 45_control_flow.md. First the effects of CALL, RET, JMP and the conditional jumps with the PC
update written out; then the obligations. -/

namespace Sys2Proof.Machine

/-! ## The effects of CALL, RET and the jumps -/

/-- The effect of CALL with the return address and the target written out (R86, R62). -/
theorem exec_call_fields (s : State) (r : Reg) :
    exec (.call r.index) s = .next { s.pushByte (fun t => t.pc + 2#8) with pc := s.decSp.reg r } :=
  exec_call_index s r

/-- The effect of RET with the target written out (R87, R62). -/
theorem exec_ret_fields (s : State) : exec .ret s = .next { s.incSp with pc := s.memRead s.sp } :=
  exec_ret s

/-- The effect of JMP with the target written out (R88, R62). -/
theorem exec_jmp_fields (s : State) (r : Reg) : exec (.jmp r.index) s = .next { s with pc := s.reg r } :=
  exec_jmp_index s r

/-- The effect of JEQ (R90, R62). -/
theorem exec_jeq_fields (s : State) (r : Reg) :
    exec (.jeq r.index) s = .next { s with pc := if s.fl = .equal then s.reg r else s.pc + 2#8 } := by
  rw [exec_jeq_index]
  by_cases hfl : s.fl = .equal
  · rw [if_pos hfl, if_pos (Flag.isEqual_iff.mpr hfl)]
    rfl
  · rw [if_neg hfl, if_neg (mt Flag.isEqual_iff.mp hfl), s.updatePc_none (k := 2#8) rfl]

/-- The effect of JNE (R91, R62). -/
theorem exec_jne_fields (s : State) (r : Reg) :
    exec (.jne r.index) s = .next { s with pc := if s.fl = .equal then s.pc + 2#8 else s.reg r } := by
  rw [exec_jne_index]
  by_cases hfl : s.fl = .equal
  · rw [if_pos hfl, if_pos (Flag.isEqual_iff.mpr hfl), s.updatePc_none (k := 2#8) rfl]
  · rw [if_neg hfl, if_neg (mt Flag.isEqual_iff.mp hfl)]
    rfl

/-- LESS, GREATER and NONE are the values of FL other than EQUAL (R17). -/
theorem Flag.ne_equal_iff {f : Flag} : f ≠ .equal ↔ f = .less ∨ f = .greater ∨ f = .none := by
  cases f <;> decide

/-! ## The obligations: CALL and RET -/

/-- Settles O45: CALL is one push, of the return address, and the target is a register read after the decrement. -/
theorem callPushesReturnAddress : Obligations.CallPushesReturnAddress := by
  refine ⟨fun r s => ?effect, fun a s l hc ha => ?fault⟩
  case effect =>
    refine ⟨_, exec_call_fields s r, s.decSp_sp, fun _ hq => s.decSp_reg_other hq, ?top, fun a ha => ?cells, ?frame⟩
    case top => exact s.pushByte_memRead_top fun t => t.pc + 2#8
    case cells => exact s.pushByte_memRead_other (fun t => t.pc + 2#8) (s.decSp_sp ▸ ha)
    case frame =>
      rw [s.decSp_reg r]
      rfl
  case fault => exact exec_operand_out_of_range_in_cycle hc (List.mem_singleton_self a) ha

/-- Settles O46: RET reads the target before its increment of SP. -/
theorem returnPopsTarget : Obligations.ReturnPopsTarget :=
  fun s => ⟨_, exec_ret_fields s, s.incSp_sp, fun _ hq => s.incSp_reg_other hq, rfl⟩

/-- Settles O47: RET pops the byte the CALL pushed, and its increment undoes the decrement modulo 256 (R33). -/
theorem returnResumesAfterCall : Obligations.ReturnResumesAfterCall := by
  intro r s t t' hcall hSp hcell
  obtain ⟨_, ht, htSp, -, htTop, -⟩ := callPushesReturnAddress.1 r s
  obtain rfl := Host.Outcome.next.inj (hcall.symm.trans ht)
  obtain ⟨u, hu, huSp, huReg, hut⟩ := returnPopsTarget t'
  refine ⟨u, hu, ?resumes, ?sp, huReg, ?memory⟩
  case resumes =>
    calc u.pc
      _ = t'.memRead (t'.reg .r6) := congrArg State.pc hut
      _ = t.memRead (t.reg .r6) := by rw [hSp, hcell]
      _ = s.pc + 2#8 := by rw [htSp, htTop]
  case sp =>
    calc u.reg .r6
      _ = t.reg .r6 + 1#8 := by rw [huSp, hSp]
      _ = s.reg .r6 := by rw [htSp, BitVec.sub_add_cancel]
  case memory => rw [hut]

/-! ## The obligations: the jumps -/

/-- Settles O48: JMP is the PC update alone, after the check of A. -/
theorem jumpGoesToRegister : Obligations.JumpGoesToRegister :=
  ⟨fun r s => exec_jmp_fields s r,
    fun a _ _ hc ha => exec_operand_out_of_range_in_cycle hc (List.mem_singleton_self a) ha⟩

/-- Settles O49: A is checked before FL is read. -/
theorem jumpIfEqualTakenOnEqual : Obligations.JumpIfEqualTakenOnEqual := by
  refine ⟨fun r s => ⟨fun hfl => ?taken, fun hfl => ?next⟩, fun a s l hc ha => ?fault, fun a => ?encoding⟩
  case taken => rw [exec_jeq_fields, if_pos hfl]
  case next => rw [exec_jeq_fields, if_neg hfl]
  case fault => exact exec_operand_out_of_range_in_cycle hc (List.mem_singleton_self a) ha
  case encoding => exact encode_withOperands (.jeq a) a 0#8

/-- Settles O50: LESS, GREATER and NONE are the other values of FL, and A is checked before FL is read. -/
theorem jumpIfNotEqualTakenOtherwise : Obligations.JumpIfNotEqualTakenOtherwise := by
  refine ⟨fun r s => ⟨fun hfl => ?taken, fun hfl => ?next⟩, fun a s l hc ha => ?fault, fun a => ?encoding⟩
  case taken => rw [exec_jne_fields, if_neg (Flag.ne_equal_iff.mpr hfl)]
  case next => rw [exec_jne_fields, if_pos hfl]
  case fault => exact exec_operand_out_of_range_in_cycle hc (List.mem_singleton_self a) ha
  case encoding => exact encode_withOperands (.jne a) a 0#8

end Sys2Proof.Machine
end

section
/-! PROOFS of the family 60_exceptions.md. First the register operands an instruction declares, the bytes R95 lists as the
complement of the default map, and the step of a fetched instruction by whether its register operands are in range; then
the obligations. -/

namespace Sys2Proof

/-- An instruction is well-formed when each register operand it declares is at most 7 (R47). -/
theorem Instr.wellFormed_iff {i : Instr} : i.wellFormed = true ↔ ∀ p ∈ i.regOperands, p.toNat ≤ 7 := by
  simp [Instr.wellFormed]

/-- A member of a list of instructions that all declare the register operands `ops` declares them (R60). -/
theorem Instr.regOperands_of_mem {l : List Instr} {ops : List Byte}
    (h : l.map Instr.regOperands = List.replicate l.length ops) {i : Instr} (hi : i ∈ l) : i.regOperands = ops :=
  List.map_eq_replicate_iff.mp h i hi

end Sys2Proof

namespace Sys2Proof.Machine

/-- The bytes that R95 lists are those that are not in the default map (R41). -/
theorem invalidOpcodeByte_iff {op : Byte} : invalidOpcodeByte op ↔ op ∉ defaultOpcodeMap.bytes := by
  revert op; decide

section
variable {m : OpcodeMap} {s : State} {i : Instr}

/-- The step of a running core that fetches an instruction with a register operand over 7 (R60, R96). -/
theorem stepWith_of_operand_out_of_range {p : Byte} (hr : s.running = true) (hc : s.cycle = none)
    (hf : s.Fetches m i) (hp : p ∈ i.regOperands) (hrange : 7 < p.toNat) :
    stepWith m s = .next (s.faultedWith .regIndexRange (s.memRead s.pc)) := by
  have hi : i.wellFormed = false := by
    rw [← Bool.not_eq_true, Instr.wellFormed_iff]
    exact fun h => absurd (h p hp) (Nat.not_le.mpr hrange)
  rw [stepWith_of_executes hr hf (.outOfRange hi), State.raiseFault_of_beginCycle hc]

/-- The step of a running core that fetches an instruction with its register operands in range raises no fault (R60). -/
theorem exists_stepWith_of_operands_in_range (hr : s.running = true) (hf : s.Fetches m i)
    (hi : ∀ p ∈ i.regOperands, p.toNat ≤ 7) : ∃ t, stepWith m s = .next t ∧ t.fault = s.fault := by
  obtain ⟨u, hu⟩ := exists_executes i s.beginCycle
  have hkept : u.fault = s.beginCycle.fault := exec_fault hu.exec_eq (Instr.wellFormed_iff.mpr hi)
  exact ⟨u.endCycle, stepWith_of_executes hr hf hu, hkept⟩

end

/-! ## The obligations -/

/-- Settles O17: the listed bytes are those outside the default map, which fault; the bytes of the map decode. -/
theorem listedBytesAreInvalidOpcodes : Obligations.ListedBytesAreInvalidOpcodes := by
  refine ⟨rfl, fun s hr hc => ⟨fun hlisted => ?faults, fun hnot => ?decodes⟩⟩
  case faults => exact stepWith_of_not_mem_bytes hr hc (invalidOpcodeByte_iff.mp hlisted)
  case decodes => exact State.exists_fetches_iff.mpr (by rwa [invalidOpcodeByte_iff, not_not] at hnot)

/-- Settles O18: each list of instructions declares A, or A and B, or nothing, as its register operands. -/
theorem registerOperandOutOfRangeFaults : Obligations.RegisterOperandOutOfRangeFaults := by
  refine ⟨rfl, fun s i a b hr hc hf => ⟨fun hi ha => ?one, fun hi hab => ?two, fun h => ?inRange⟩⟩
  case one =>
    have hops : i.regOperands = [a] := Instr.regOperands_of_mem rfl hi
    exact stepWith_of_operand_out_of_range hr hc hf (by simp [hops]) ha
  case two =>
    have hops : i.regOperands = [a, b] := Instr.regOperands_of_mem rfl hi
    rcases hab with ha | hb
    · exact stepWith_of_operand_out_of_range hr hc hf (by simp [hops]) ha
    · exact stepWith_of_operand_out_of_range hr hc hf (by simp [hops]) hb
  case inRange =>
    refine exists_stepWith_of_operands_in_range hr hf ?_
    rcases h with hi | ⟨hi, ha⟩ | ⟨hi, ha, hb⟩
    · have hops : i.regOperands = [] := Instr.regOperands_of_mem rfl hi
      simp [hops]
    · have hops : i.regOperands = [a] := Instr.regOperands_of_mem rfl hi
      simpa [hops] using ha
    · have hops : i.regOperands = [a, b] := Instr.regOperands_of_mem rfl hi
      simpa [hops] using ⟨ha, hb⟩

end Sys2Proof.Machine
end

section
/-! PROOFS of the family 70_reset_and_hazards.md. First the registers and cells of the reset state, when a load is
answered and with which state, and the bytes of a memory loaded at 0; then the obligations. -/

namespace Sys2Proof.Machine

/-! ## The reset state (R27) -/

/-- Every cell is 0 after reset (R37): none is listed. -/
@[simp] theorem State.reset_memRead (a : Byte) : State.reset.memRead a = 0#8 := rfl

/-- SP is the one register that is not 0 after reset. -/
theorem State.reset_reg (r : Reg) : State.reset.reg r = if r = .r6 then 0xF4#8 else 0#8 := by
  cases r <;> rfl

/-! ## The load (R109) -/

/-- A load is answered for an image that fits, in the reset state only (log entry 7), and writes nothing but memory. -/
theorem hostLoad_eq_some_iff {image : List Byte} {s t : State} :
    hostLoad image s = some t ↔
      (s = State.reset ∧ image.length ≤ Config.memSize) ∧ { s with mem := s.mem.place 0 image } = t := by
  rw [hostLoad, Option.ite_none_right_eq_some, Option.some_inj]

/-- An image longer than memory is refused (D15). -/
theorem hostLoad_of_memSize_lt {image : List Byte} (h : Config.memSize < image.length) (s : State) :
    hostLoad image s = none :=
  if_neg fun ⟨_, hfits⟩ => Nat.not_le.mpr h hfits

/-- The byte of the image stands at its own address, and the cells past the image keep what they held. -/
theorem Memory.read_place_zero (image : List Byte) (m : Memory) (b : Nat) :
    (m.place 0 image).read b = if b < image.length then image.getD b 0#8 else m.read b := by
  simp only [Memory.read_place, Nat.zero_le, true_and, Nat.zero_add, Nat.sub_zero]

/-! ## The obligations -/

/-- Settles O2: the load places the image over the reset memory, whose cells are 0. -/
theorem loadPlacesImageFromZero : Obligations.LoadPlacesImageFromZero := by
  refine fun image => ⟨fun hfits => ?placed, fun hlong => ?refused⟩
  case placed =>
    refine ⟨_, hostLoad_eq_some_iff.mpr ⟨⟨rfl, hfits⟩, rfl⟩, fun a => ?cells, rfl⟩
    case cells => exact Memory.read_place_zero image State.reset.mem a.toNat
  case refused => exact hostLoad_of_memSize_lt hlong State.reset

/-- Settles O4: placing an image that fits keeps memory canonical, and the rest of the invariant holds from reset. -/
theorem loadedStateMeetsInvariant : Obligations.LoadedStateMeetsInvariant := by
  intro image s t h
  obtain ⟨⟨rfl, hfits⟩, rfl⟩ := hostLoad_eq_some_iff.mp h
  have hmem : (State.reset.mem.place 0 image).wf :=
    Memory.place_wf image reset_mem_wf (by rwa [Nat.zero_add])
  obtain ⟨-, hcycle, hfault⟩ := resetStateMeetsInvariant.1
  exact ⟨hmem, hcycle, hfault⟩

/-- Settles O1: the reset input answers the reset state whatever the state it is given in. -/
theorem resetPutsEveryStateToItsValue : Obligations.ResetPutsEveryStateToItsValue :=
  fun _ => ⟨rfl, State.reset_memRead, State.reset_reg, rfl, rfl, rfl, rfl, rfl, rfl⟩

end Sys2Proof.Machine
end
